-- ==== Sys2Proof/Word.lean ====
section
/-! DEFINITION. The two bit widths every other file speaks of (`00_scope.md` R12: XLEN = 32; INMEM and OUTMEM are byte memories). -/

namespace Sys2Proof

/-- A register word, an address, a command word or a pixel: `XLEN` = 32 bits (R12). -/
abbrev Word := BitVec 32

/-- A byte of INMEM or OUTMEM, or one colour channel. -/
abbrev Byte := BitVec 8

end Sys2Proof
end

