-- ==== Sys2Proof/Syntax.lean ====
section
/-! DEFINITION. The instructions of the block: "the commands a host writes to its command register and the decode modes
that the BPP, COMPRESSION and FMT registers select inside the DECODE command" (`00_scope.md` R3). One constructor per
mnemonic of `opcode_table.json`; the rows that share a mnemonic (ILLEGAL, REJECT.OTHER, ORDER.INVALID) share a
constructor, whose operand is the word those rows cover. -/

namespace Sys2Proof

/-- The instructions. Operands are raw field values; which values a constructor may carry is `Instr.wf`. -/
inductive Instr where
  -- commands (R141, R142)
  | nop
  | palLoad
  | maskLoad
  | bfx
  | palLookup
  | decode
  | illegal (w : Word)
  -- unpack paths (R143); `bf` is the key's bit 0, free where the path does not read it
  | unpack0 (bf : Bool)
  | unpack1 (bf : Bool)
  | unpack4 (bf : Bool)
  | unpack8 (bf : Bool)
  | unpack16x555
  | unpack16bf
  | unpack24 (bf : Bool)
  | unpack32rgb
  | unpack32bf
  -- rejected compression values (R144)
  | rejectRle8
  | rejectRle4
  | rejectJpeg
  | rejectPng
  | rejectOther (comp : Word)
  -- channel orders (R145)
  | orderRgba
  | orderBgra
  | orderArgb
  | orderAbgr
  | orderInvalid (ord : BitVec 3)
  -- orientation and output format (R146)
  | orientTopdown
  | orientBottomup
  | outBytes
  | outWords
deriving DecidableEq, Repr

/-- The mnemonic of the instruction's row in `opcode_table.json` (R150). -/
def Instr.mnemonic : Instr → String
  | .nop => "NOP"
  | .palLoad => "PAL_LOAD"
  | .maskLoad => "MASK_LOAD"
  | .bfx => "BFX"
  | .palLookup => "PAL_LOOKUP"
  | .decode => "DECODE"
  | .illegal _ => "ILLEGAL"
  | .unpack0 _ => "UNPACK.0"
  | .unpack1 _ => "UNPACK.1"
  | .unpack4 _ => "UNPACK.4"
  | .unpack8 _ => "UNPACK.8"
  | .unpack16x555 => "UNPACK.16.555"
  | .unpack16bf => "UNPACK.16.BF"
  | .unpack24 _ => "UNPACK.24"
  | .unpack32rgb => "UNPACK.32.RGB"
  | .unpack32bf => "UNPACK.32.BF"
  | .rejectRle8 => "REJECT.RLE8"
  | .rejectRle4 => "REJECT.RLE4"
  | .rejectJpeg => "REJECT.JPEG"
  | .rejectPng => "REJECT.PNG"
  | .rejectOther _ => "REJECT.OTHER"
  | .orderRgba => "ORDER.RGBA"
  | .orderBgra => "ORDER.BGRA"
  | .orderArgb => "ORDER.ARGB"
  | .orderAbgr => "ORDER.ABGR"
  | .orderInvalid _ => "ORDER.INVALID"
  | .orientTopdown => "ORIENT.TOPDOWN"
  | .orientBottomup => "ORIENT.BOTTOMUP"
  | .outBytes => "OUT.BYTES"
  | .outWords => "OUT.WORDS"

/-- The encoding formats (R140). FMTBIT is two one-bit fields of register FMT, so it is two formats here. -/
inductive Format where
  | cmd       -- the whole word written to register CMD
  | mode      -- the 17-bit key BPP[15:0], BF
  | comp      -- register COMPRESSION
  | order     -- FMT bits 2:0
  | topdown   -- FMT bit 3
  | outfmt    -- FMT bit 4
deriving DecidableEq, Repr

/-- An encoded instruction: its format and its word, the field standing where the format puts it (an ORDER or FMTBIT
field where it stands in register FMT, as `opcode_table.json` has it). -/
structure Encoded where
  format : Format
  word : Word
deriving DecidableEq, Repr

end Sys2Proof
end

