-- ==== Sys2Proof/WellFormed.lean ====
section
/-! DEFINITION. Which operands an instruction may carry: an operand that another row of the table names is refused, so
that every encoded word stands for one well-formed instruction. -/

namespace Sys2Proof

/-- ILLEGAL covers the command words 6 and up (R142), REJECT.OTHER the compression values 6 and up (R144),
ORDER.INVALID the orders 4 to 7 (R145). Every other operand is free. -/
def Instr.wf : Instr → Bool
  | .illegal w => 6 ≤ w.toNat
  | .rejectOther comp => 6 ≤ comp.toNat
  | .orderInvalid ord => 4 ≤ ord.toNat
  | _ => true

end Sys2Proof
end

