-- ==== Sys2Proof/Decode.lean ====
section
/-! DEFINITION. From encoded words to instructions and back (`30_encoding.md`). Decoding is total: it answers an
instruction, or a rejection that says by name why the word stands for none. -/

namespace Sys2Proof

/-- The number of bits of the format's word that a reader must be given, counted from bit 0. -/
def Format.bits : Format → Nat
  | .cmd => 32
  | .mode => 17
  | .comp => 32
  | .order => 3
  | .topdown => 4
  | .outfmt => 5

/-- The bits that belong to the format's field (R140); every other bit of an encoded word is 0. -/
def Format.field : Format → Word
  | .cmd => 0xFFFFFFFF#32
  | .mode => 0x0001FFFF#32
  | .comp => 0xFFFFFFFF#32
  | .order => 0x00000007#32
  | .topdown => 0x00000008#32
  | .outfmt => 0x00000010#32

/-- Why a word stands for no instruction. -/
inductive DecodeReject where
  /-- a bit is set that does not belong to the format's field -/
  | outsideField (w : Word)
  /-- a MODE key whose BPP is not 0, 1, 4, 8, 16, 24 or 32 (R143, last row) -/
  | unsupportedBitDepth (bpp : BitVec 16)
  /-- a COMP value that DECODE decodes instead of rejecting: 0 or 3 (R144) -/
  | compressionDecoded (comp : Word)
  /-- the number of bytes is not the format's -/
  | wrongLength (n : Nat)
deriving DecidableEq, Repr

/-- The command word (R141, R142): total, since every word from 6 up is ILLEGAL. -/
def decodeCmd (w : Word) : Instr :=
  if w = 0#32 then .nop
  else if w = 1#32 then .palLoad
  else if w = 2#32 then .maskLoad
  else if w = 3#32 then .bfx
  else if w = 4#32 then .palLookup
  else if w = 5#32 then .decode
  else .illegal w

/-- The MODE key: BPP in bits 16:1, BF in bit 0 (R140, R143). -/
def decodeMode (key : BitVec 17) : Except DecodeReject Instr :=
  let bpp : BitVec 16 := key.extractLsb' 1 16
  let bf := key.getLsbD 0
  if bpp = 0#16 then .ok (.unpack0 bf)
  else if bpp = 1#16 then .ok (.unpack1 bf)
  else if bpp = 4#16 then .ok (.unpack4 bf)
  else if bpp = 8#16 then .ok (.unpack8 bf)
  else if bpp = 16#16 then .ok (if bf then .unpack16bf else .unpack16x555)
  else if bpp = 24#16 then .ok (.unpack24 bf)
  else if bpp = 32#16 then .ok (if bf then .unpack32bf else .unpack32rgb)
  else .error (.unsupportedBitDepth bpp)

/-- The COMP field (R144): 1, 2, 4, 5 and everything from 6 up are rejection rows; 0 and 3 are decoded. -/
def decodeComp (comp : Word) : Except DecodeReject Instr :=
  if comp = 1#32 then .ok .rejectRle8
  else if comp = 2#32 then .ok .rejectRle4
  else if comp = 4#32 then .ok .rejectJpeg
  else if comp = 5#32 then .ok .rejectPng
  else if 6 ≤ comp.toNat then .ok (.rejectOther comp)
  else .error (.compressionDecoded comp)

/-- The ORDER field (R145). -/
def decodeOrder (ord : BitVec 3) : Instr :=
  if ord = 0#3 then .orderRgba
  else if ord = 1#3 then .orderBgra
  else if ord = 2#3 then .orderArgb
  else if ord = 3#3 then .orderAbgr
  else .orderInvalid ord

/-- FMT.TOPDOWN (R146). -/
def decodeTopdown (b : Bool) : Instr := if b then .orientTopdown else .orientBottomup

/-- FMT.OUTFMT (R146). -/
def decodeOutfmt (b : Bool) : Instr := if b then .outWords else .outBytes

/-- Decoding an encoded word of a given format. -/
def decode (e : Encoded) : Except DecodeReject Instr :=
  if e.word &&& ~~~ e.format.field ≠ 0#32 then .error (.outsideField e.word)
  else match e.format with
    | .cmd => .ok (decodeCmd e.word)
    | .mode => decodeMode (e.word.setWidth 17)
    | .comp => decodeComp e.word
    | .order => .ok (decodeOrder (e.word.setWidth 3))
    | .topdown => .ok (decodeTopdown (e.word.getLsbD 3))
    | .outfmt => .ok (decodeOutfmt (e.word.getLsbD 4))

/-- Bytes, lowest address first, as one little-endian number (R17, R103). -/
def natOfBytes : List Byte → Nat
  | [] => 0
  | b :: bs => b.toNat + 256 * natOfBytes bs

/-- Decoding from bytes: the format's bits in whole bytes, little-endian. -/
def decodeBytes (f : Format) (bs : List Byte) : Except DecodeReject Instr :=
  if bs.length ≠ (f.bits + 7) / 8 then .error (.wrongLength bs.length)
  else decode ⟨f, BitVec.ofNat 32 (natOfBytes bs)⟩

/-- The MODE key of a bit depth and the bit-fields bit (R140). -/
def modeKeyOf (bpp : BitVec 16) (bf : Bool) : BitVec 17 := bpp ++ BitVec.ofBool bf

/-- A MODE key as an encoded word. -/
def encodedMode (bpp : BitVec 16) (bf : Bool) : Encoded := ⟨.mode, (modeKeyOf bpp bf).setWidth 32⟩

/-- The word of an instruction, from the tables of R141 and R143 to R146. -/
def encode : Instr → Encoded
  | .nop => ⟨.cmd, 0x00000000#32⟩
  | .palLoad => ⟨.cmd, 0x00000001#32⟩
  | .maskLoad => ⟨.cmd, 0x00000002#32⟩
  | .bfx => ⟨.cmd, 0x00000003#32⟩
  | .palLookup => ⟨.cmd, 0x00000004#32⟩
  | .decode => ⟨.cmd, 0x00000005#32⟩
  | .illegal w => ⟨.cmd, w⟩
  | .unpack0 bf => encodedMode 0#16 bf
  | .unpack1 bf => encodedMode 1#16 bf
  | .unpack4 bf => encodedMode 4#16 bf
  | .unpack8 bf => encodedMode 8#16 bf
  | .unpack16x555 => encodedMode 16#16 false
  | .unpack16bf => encodedMode 16#16 true
  | .unpack24 bf => encodedMode 24#16 bf
  | .unpack32rgb => encodedMode 32#16 false
  | .unpack32bf => encodedMode 32#16 true
  | .rejectRle8 => ⟨.comp, 1#32⟩
  | .rejectRle4 => ⟨.comp, 2#32⟩
  | .rejectJpeg => ⟨.comp, 4#32⟩
  | .rejectPng => ⟨.comp, 5#32⟩
  | .rejectOther comp => ⟨.comp, comp⟩
  | .orderRgba => ⟨.order, 0#32⟩
  | .orderBgra => ⟨.order, 1#32⟩
  | .orderArgb => ⟨.order, 2#32⟩
  | .orderAbgr => ⟨.order, 3#32⟩
  | .orderInvalid ord => ⟨.order, ord.setWidth 32⟩
  | .orientTopdown => ⟨.topdown, 0x8#32⟩
  | .orientBottomup => ⟨.topdown, 0x0#32⟩
  | .outBytes => ⟨.outfmt, 0x00#32⟩
  | .outWords => ⟨.outfmt, 0x10#32⟩

/-- Which format a word of `opcode_table.json` is read in, from the number of bits its row has. The table's formats
share words, so this is a convention (log 9): a full word is a command, 17 to 31 bits are a MODE key, fewer are
register FMT, of which bit 3 selects ORIENT, else bit 4 selects OUT, else the ORDER field is read. -/
def tableFormat (nbits w : Nat) : Format :=
  if 32 ≤ nbits then .cmd
  else if 17 ≤ nbits then .mode
  else if w.testBit 3 then .topdown
  else if w.testBit 4 then .outfmt
  else .order

/-- The instruction the decoder reads from a word of `opcode_table.json` (log 9). -/
def decodeTableWord (nbits w : Nat) : Option Instr :=
  let f := tableFormat nbits w
  if 2 ^ 32 ≤ w then none
  else
    -- a word of register FMT carries its other fields too; they are not this row's
    let kept := if f = .cmd ∨ f = .mode then BitVec.ofNat 32 w else BitVec.ofNat 32 w &&& f.field
    match decode ⟨f, kept⟩ with
    | .ok i => some i
    | .error _ => none

/-- The rows of `opcode_table.json`: the format, the bits that must match, and the mnemonic. -/
structure OpcodeRow where
  format : Format
  pattern : Word
  mask : Word
  mnemonic : String
deriving DecidableEq, Repr

/-- The rows by which the table covers every word from 6 up: 6 and 7, then each leading bit from bit 3 to bit 31. -/
def rowsFromSix (f : Format) (name : String) : List OpcodeRow :=
  ⟨f, 0x6#32, 0xFFFFFFFE#32, name⟩ ::
    (List.range 29).map fun k => ⟨f, 1#32 <<< (k + 3), 0xFFFFFFFF#32 <<< (k + 3), name⟩

/-- The table, in its own order. -/
def opcodeRows : List OpcodeRow :=
  [ ⟨.cmd, 0x0#32, 0xFFFFFFFF#32, "NOP"⟩, ⟨.cmd, 0x1#32, 0xFFFFFFFF#32, "PAL_LOAD"⟩,
    ⟨.cmd, 0x2#32, 0xFFFFFFFF#32, "MASK_LOAD"⟩, ⟨.cmd, 0x3#32, 0xFFFFFFFF#32, "BFX"⟩,
    ⟨.cmd, 0x4#32, 0xFFFFFFFF#32, "PAL_LOOKUP"⟩, ⟨.cmd, 0x5#32, 0xFFFFFFFF#32, "DECODE"⟩ ]
  ++ rowsFromSix .cmd "ILLEGAL"
  ++ [ ⟨.mode, 0x00000#32, 0x1FFFE#32, "UNPACK.0"⟩, ⟨.mode, 0x00002#32, 0x1FFFE#32, "UNPACK.1"⟩,
    ⟨.mode, 0x00008#32, 0x1FFFE#32, "UNPACK.4"⟩, ⟨.mode, 0x00010#32, 0x1FFFE#32, "UNPACK.8"⟩,
    ⟨.mode, 0x00020#32, 0x1FFFF#32, "UNPACK.16.555"⟩, ⟨.mode, 0x00021#32, 0x1FFFF#32, "UNPACK.16.BF"⟩,
    ⟨.mode, 0x00030#32, 0x1FFFE#32, "UNPACK.24"⟩, ⟨.mode, 0x00040#32, 0x1FFFF#32, "UNPACK.32.RGB"⟩,
    ⟨.mode, 0x00041#32, 0x1FFFF#32, "UNPACK.32.BF"⟩ ]
  ++ [ ⟨.comp, 0x1#32, 0xFFFFFFFF#32, "REJECT.RLE8"⟩, ⟨.comp, 0x2#32, 0xFFFFFFFF#32, "REJECT.RLE4"⟩,
    ⟨.comp, 0x4#32, 0xFFFFFFFF#32, "REJECT.JPEG"⟩, ⟨.comp, 0x5#32, 0xFFFFFFFF#32, "REJECT.PNG"⟩ ]
  ++ rowsFromSix .comp "REJECT.OTHER"
  ++ [ ⟨.order, 0x0#32, 0x7#32, "ORDER.RGBA"⟩, ⟨.order, 0x1#32, 0x7#32, "ORDER.BGRA"⟩,
    ⟨.order, 0x2#32, 0x7#32, "ORDER.ARGB"⟩, ⟨.order, 0x3#32, 0x7#32, "ORDER.ABGR"⟩,
    ⟨.order, 0x4#32, 0x7#32, "ORDER.INVALID"⟩, ⟨.order, 0x5#32, 0x7#32, "ORDER.INVALID"⟩,
    ⟨.order, 0x6#32, 0x7#32, "ORDER.INVALID"⟩, ⟨.order, 0x7#32, 0x7#32, "ORDER.INVALID"⟩ ]
  ++ [ ⟨.topdown, 0x8#32, 0x8#32, "ORIENT.TOPDOWN"⟩, ⟨.topdown, 0x0#32, 0x8#32, "ORIENT.BOTTOMUP"⟩,
    ⟨.outfmt, 0x00#32, 0x10#32, "OUT.BYTES"⟩, ⟨.outfmt, 0x10#32, 0x10#32, "OUT.WORDS"⟩ ]

/-- The hexadecimal digits of `n`, exactly `k` of them, most significant first. R150 gives no letter case; A to F in
upper case are the model's choice (DESIGN CHOICE, log 32). -/
def hexDigits : Nat → Nat → List Char
  | 0, _ => []
  | k + 1, n =>
    hexDigits k (n / 16) ++ [(['0', '1', '2', '3', '4', '5', '6', '7', '8', '9', 'A', 'B', 'C', 'D', 'E', 'F'])[n % 16]!]

/-- Disassembly of a command word (R150). -/
def disassembleCmd (w : Word) : String :=
  match decodeCmd w with
  | .illegal v => "ILLEGAL 0x" ++ String.ofList (hexDigits 8 v.toNat)
  | i => i.mnemonic

/-- Disassembly of DECODE's mode from its MODE key and register FMT (R150). `none` where the key names no path, and no
REJECT mnemonic of R144 for a rejected COMPRESSION value, for which R150's form has no place (DESIGN CHOICE, log 32). -/
def disassembleMode (key : BitVec 17) (fmt : BitVec 5) : Option String :=
  match decodeMode key with
  | .ok u => some ("DECODE " ++ u.mnemonic ++ " " ++ (decodeOrder (fmt.extractLsb' 0 3)).mnemonic ++ " "
      ++ (decodeTopdown (fmt.getLsbD 3)).mnemonic ++ " " ++ (decodeOutfmt (fmt.getLsbD 4)).mnemonic)
  | .error _ => none

end Sys2Proof
end

