-- ==== Sys2Proof/Config.lean ====
section
/-! DEFINITION. What is fixed for this hardware (`00_scope.md` R12), and the free values: constants without a body, of
which nothing can be proved, so that a claim holds whatever they are. -/

namespace Sys2Proof.Config

/-- The constant register ID (R31): "VD", command-set revision 1. -/
def idValue : Word := 0x56440001#32

/-- `PAL_MAX`: palette RAM entries (R12, R40). -/
def palMax : Nat := 256

/-- The first byte address that INMEM and OUTMEM do not have: they hold addresses 0 .. 2^32-2 (R12, R100). -/
def memTop : Nat := 2 ^ 32 - 1

/-- What a byte of INMEM or OUTMEM reads as that nobody has written. DESIGN CHOICE, unsafe (log 6): the spec does not
reset either memory; the programs of `95_test_vectors.md` start from zeros. -/
def unlisted : Byte := 0#8

/-- The 16 bpp default masks (R290), red, green, blue. -/
def red555 : Word := 0x7C00#32
def green555 : Word := 0x03E0#32
def blue555 : Word := 0x001F#32

/-- FREE. The OPEN parameter `LATENCY` (R12, R202, R481): how many steps pass between the acceptance numbered `n` and
its completion; finite and otherwise unconstrained (log 2). -/
opaque latency : Nat → Nat

/-- FREE. The `n`-th unspecified byte (log 3): OUTMEM bytes of R421, R462 and R114. -/
opaque freeByte : Nat → Byte

/-- FREE. The `n`-th unspecified word (log 3): PALWIN reads of R42, palette entries of R254 and R460, the data of an
MMIO read while `rst` is asserted. -/
opaque freeWord : Nat → Word

/-- OPEN (R12): where the platform maps the register file. No rule depends on it; every rule uses offsets. -/
opaque mmioBase : Nat

/-- OPEN (R12): where the platform maps INMEM. Only the overlap of R478 depends on it (log 30). -/
opaque inSysBase : Nat

/-- OPEN (R12): where the platform maps OUTMEM. Only the overlap of R478 depends on it (log 30). -/
opaque outSysBase : Nat

/-- OPEN (R478): whether the platform maps INMEM and OUTMEM "onto one physical memory" (log 30). -/
opaque sharedMemory : Bool

end Sys2Proof.Config
end

