-- ==== Sys2Proof/Machine/State.lean ====
section
/-! DEFINITION. The state of the machine as plain data (`10_state.md`): the register file, the palette RAM, the engine's
busy state, the two byte memories beside the block, and what the host will do next. -/

namespace Sys2Proof.Machine

/-- A byte memory: (address, byte) pairs, addresses rising, no pair whose byte an unlisted address reads as. -/
abbrev Memory := List Host.Cell

/-- A palette RAM entry (R40): blue, green, red and a reserved byte. -/
structure PalEntry where
  b : Byte
  g : Byte
  r : Byte
  rsv : Byte
deriving DecidableEq, Repr

/-- The stored bits of the register file (R32). ID is a constant (R31) and reserved bits read 0 (R64), so neither has a
home here; STATUS.BUSY is 1 exactly while `State.pending` holds a command (R45). -/
structure Regs where
  /-- CMD (R34) -/
  cmd : Word
  /-- STATUS.DONE (R35) -/
  done : Bool
  /-- STATUS.ERR (R35) -/
  err : Bool
  /-- ERRCODE[3:0] (R36) -/
  errcode : BitVec 4
  /-- ERRINFO (R37) -/
  errinfo : Word
  /-- ERRROW (R37) -/
  errrow : Word
  /-- ERRCOL (R37) -/
  errcol : Word
  /-- IRQEN.IE (R38) -/
  ie : Bool
  /-- WIDTH (R50), a two's-complement pattern -/
  width : Word
  /-- HEIGHT (R51), a two's-complement pattern -/
  height : Word
  /-- BPP[15:0] (R52) -/
  bpp : BitVec 16
  /-- COMPRESSION (R53) -/
  compression : Word
  /-- RMASK (R54) -/
  rmask : Word
  /-- GMASK (R54) -/
  gmask : Word
  /-- BMASK (R54) -/
  bmask : Word
  /-- FMT[4:0] (R55): ORDER in bits 2:0, TOPDOWN in bit 3, OUTFMT in bit 4 -/
  fmt : BitVec 5
  /-- PIX_BASE (R56) -/
  pixBase : Word
  /-- IN_LEN (R57) -/
  inLen : Word
  /-- OUT_LEN (R58) -/
  outLen : Word
  /-- PAL_BASE (R59) -/
  palBase : Word
  /-- PAL_LEN (R59) -/
  palLen : Word
  /-- MASK_BASE (R60) -/
  maskBase : Word
  /-- PAL_COUNT[8:0] (R41) -/
  palCount : BitVec 9
  /-- ARG (R61) -/
  arg : Word
  /-- RESULT (R62) -/
  result : Word
  /-- OUT_COUNT (R63) -/
  outCount : Word
deriving DecidableEq, Repr

/-- The pending command (R45, R200): the latched word, the registers as they stood at acceptance, and how many steps of
its latency are left (R202; the model's own, log 2). -/
structure Pending where
  word : Word
  snap : Regs
  delay : Nat
deriving DecidableEq, Repr

/-- The unpacking cursor (R46): the stored row and column the unpacker stands at. -/
structure Cursor where
  row : Nat
  col : Nat
deriving DecidableEq, Repr

/-- What the host can do to the block (R22, R149), one bus operation each. -/
inductive HostOp where
  /-- `WR`: an MMIO write of `size` bytes at byte offset `off` -/
  | wr (off : Word) (size : Nat) (v : Word)
  /-- `RD`: an MMIO read of `size` bytes at byte offset `off` -/
  | rd (off : Word) (size : Nat)
  /-- `INB`: the host writes one byte of INMEM -/
  | inb (a : Word) (b : Byte)
  /-- `OUTB`: the host reads one byte of OUTMEM -/
  | outb (a : Word)
  /-- the host drives `rst` to a level (R461) -/
  | rst (level : Bool)
  /-- `WAIT`: read STATUS again and again until its bit 0 reads 0 -/
  | wait
  /-- "stop if STATUS.ERR" of LOADFILE (R471): where the last value read has bit 2 set, the host does no more -/
  | stopOnErr
  /-- `OUTB 0 .. OUT_COUNT - 1`, the last line of LOADFILE (R471): read OUT_COUNT, then that many bytes of OUTMEM -/
  | outbCount
  /-- no bus operation in this turn of the host (log 1) -/
  | idle
deriving DecidableEq, Repr

/-- The machine. `host`, `busData`, `outData` and `draws` are the model's own fields (logs 1, 3, 18). -/
structure State where
  /-- the register file (R32) -/
  regs : Regs
  /-- PAL[0..255] (R40) -/
  pal : List PalEntry
  /-- the engine's busy state (R45): some exactly while STATUS.BUSY = 1 -/
  pending : Option Pending
  /-- the unpacking cursor (R46): some while a DECODE is pending -/
  cursor : Option Cursor
  /-- the level of `rst` (R461) -/
  rst : Bool
  /-- INMEM (R100) -/
  inmem : Memory
  /-- OUTMEM (R100) -/
  outmem : Memory
  /-- the bus operations the host will make, oldest first -/
  host : List HostOp
  /-- the data of the host's last MMIO read -/
  busData : Word
  /-- the byte of the host's last OUTMEM read -/
  outData : Byte
  /-- how many free values have been drawn -/
  draws : Nat
deriving DecidableEq, Repr

/-- Why the machine stops with a fault. No instruction raises one: only a host access does, and stopping is safe. -/
inductive Fault where
  /-- raised by INB at address 2^32-1, which INMEM does not have (R100); safe -/
  | inmemAddress
  /-- raised by OUTB at address 2^32-1, which OUTMEM does not have (R100); safe -/
  | outmemAddress
deriving DecidableEq, Repr

/-- Why the model gives a run no meaning. No instruction is refused: only a host operation is, and refusing is safe. -/
inductive Refusal where
  /-- an instruction without a meaning in the model; no arm of `exec` answers it -/
  | notModelled (mnemonic : String)
  /-- raised by WR and RD that are not an aligned 32-bit access: "a model refuses the run that makes one" (R110); safe -/
  | mmioAccess
  /-- raised by INB on a byte the pending command reads: "a model refuses such a run" (R476); safe -/
  | inmemHazard
  /-- raised by the WR that starts a DECODE whose output lies over the INMEM bytes it reads: "if the ranges overlap, the
  result is unspecified and a model refuses the run" (R478); safe -/
  | memoryOverlap
deriving DecidableEq, Repr

/-- The registers after reset (R460). -/
def Regs.reset : Regs where
  cmd := 0
  done := false
  err := false
  errcode := 0
  errinfo := 0
  errrow := 0
  errcol := 0
  ie := false
  width := 0
  height := 0
  bpp := 0
  compression := 0
  rmask := 0
  gmask := 0
  bmask := 0
  fmt := 0
  pixBase := 0
  inLen := 0
  outLen := 0
  palBase := 0
  palLen := 0
  maskBase := 0
  palCount := 0
  arg := 0
  result := 0
  outCount := 0

/-- The machine right after reset (R460, R463): idle, every register at its reset value. PAL is unspecified there and
zero here (DESIGN CHOICE, log 4: no read returns the stored value of an entry at or above PAL_COUNT). INMEM and OUTMEM
are not the block's and list nothing (log 6); the host has nothing to do (log 1). -/
def State.reset : State where
  regs := Regs.reset
  pal := List.replicate 256 ⟨0, 0, 0, 0⟩
  pending := none
  cursor := none
  rst := false
  inmem := []
  outmem := []
  host := []
  busData := 0
  outData := 0
  draws := 0

end Sys2Proof.Machine
end

