-- ==== Sys2Proof/Machine/Flags.lean ====
section
/-! DEFINITION. The block's only flags, STATUS.BUSY, STATUS.DONE and STATUS.ERR (`10_state.md` R35, R47), the interrupt
line made of them (R430), and every way they change: acceptance, completion, the host's W1C write. -/

namespace Sys2Proof.Machine

/-- STATUS.BUSY (R35, R45). -/
def State.busy (s : State) : Bool := s.pending.isSome

/-- STATUS as a word (R35): BUSY bit 0, DONE bit 1, ERR bit 2, the rest 0. -/
def statusWord (busy done err : Bool) : Word :=
  (BitVec.ofBool err ++ BitVec.ofBool done ++ BitVec.ofBool busy).setWidth 32

/-- What a read of STATUS gives (R35). -/
def State.status (s : State) : Word := statusWord s.busy s.regs.done s.regs.err

/-- The interrupt output: "asserted while `x[STATUS].DONE = 1 and x[IRQEN].IE = 1`" (R430). -/
def State.irq (s : State) : Bool := s.regs.done && s.regs.ie

/-- The registers at the acceptance of word `w` (R200): CMD latched, DONE and ERR cleared, the error registers, RESULT
and OUT_COUNT set to 0. BUSY is the pending command itself. -/
def Regs.accepted (w : Word) (r : Regs) : Regs :=
  { r with cmd := w, done := false, err := false, errcode := 0, errinfo := 0, errrow := 0, errcol := 0,
           result := 0, outCount := 0 }

/-- The flags and error registers at a completion without error (R201): DONE 1, ERR 0, ERRCODE 0, no detail. -/
def Regs.succeeded (r : Regs) : Regs :=
  { r with done := true, err := false, errcode := 0, errinfo := 0, errrow := 0, errcol := 0 }

/-- The flags and error registers at a completion with an error (R201): DONE 1, ERR 1, the code and its detail. -/
def Regs.failed (code : BitVec 4) (info row col : Word) (r : Regs) : Regs :=
  { r with done := true, err := true, errcode := code, errinfo := info, errrow := row, errcol := col }

/-- A host write `v` of STATUS while not busy (R35): bit 1 = 1 clears DONE; nothing else is writable. -/
def Regs.writeStatus (v : Word) (r : Regs) : Regs :=
  { r with done := r.done && !v.getLsbD 1 }

end Sys2Proof.Machine
end

