-- ==== Sys2Proof/Machine/Ops.lean ====
section
/-! DEFINITION. The shared operations: byte memory, little-endian access (`00_scope.md` R17), saturation (R411), errors
(`60_exceptions.md` R410), acceptance (`40_commands.md` R200) and the two ends of a command (R201): success, and the
block's one way of taking an exception, completion with an error (R445). -/

namespace Sys2Proof.Machine

/-! Memory -/

/-- One byte of a memory; an unlisted address reads `Config.unlisted` (log 6). -/
def Memory.read : Memory → Nat → Byte
  | [], _ => Config.unlisted
  | (k, b) :: m, a => if k = a then b else Memory.read m a

/-- Insert a pair before the first higher address. -/
def Memory.insert : Memory → Nat → Byte → Memory
  | [], a, v => [(a, v)]
  | (k, b) :: m, a, v => if a < k then (a, v) :: (k, b) :: m else (k, b) :: Memory.insert m a v

/-- Write one byte, keeping the canonical form: the value an unlisted address reads as removes the entry. -/
def Memory.write (m : Memory) (a : Nat) (v : Byte) : Memory :=
  let rest := m.filter fun c => c.1 ≠ a
  if v = Config.unlisted then rest else Memory.insert rest a v

/-- The canonical form: addresses strictly rising, every address below 2^32-1, no entry equal to what an unlisted
address reads as. -/
abbrev Memory.wf (m : Memory) : Prop :=
  m.Pairwise (fun x y => x.1 < y.1) ∧ ∀ c ∈ m, c.1 < Config.memTop ∧ c.2 ≠ Config.unlisted

/-- `MemRead(a, n)` (R17): n bytes as one little-endian number. -/
def Memory.readLE (m : Memory) (a : Nat) : Nat → Nat
  | 0 => 0
  | n + 1 => (m.read a).toNat + 256 * Memory.readLE m (a + 1) n

/-- `MemWrite(a, n, v)` (R17): the n low bytes of v, least significant first. -/
def Memory.writeLE (m : Memory) (a : Nat) : Nat → Nat → Memory
  | 0, _ => m
  | n + 1, v => Memory.writeLE (m.write a (BitVec.ofNat 8 v)) (a + 1) n (v / 256)

/-- A 32-bit little-endian read. -/
def Memory.word32 (m : Memory) (a : Nat) : Word := BitVec.ofNat 32 (m.readLE a 4)

/-- A 16-bit little-endian read, zero-extended (R148). -/
def Memory.word16 (m : Memory) (a : Nat) : Word := BitVec.ofNat 32 (m.readLE a 2)

/-- Addresses 0 .. n-1 written with `f 0 .. f (n-1)`. -/
def Memory.fill (m : Memory) (f : Nat → Byte) : Nat → Memory
  | 0 => m
  | n + 1 => (Memory.fill m f n).write n (f n)

/-! Loops and searches in ascending order -/

/-- `f 0 .. f (n-1)` collected in order; the first error ends it. -/
def collect {ε α : Type} (f : Nat → Except ε α) : Nat → Except ε (List α)
  | 0 => .ok []
  | n + 1 =>
    match collect f n with
    | .error e => .error e
    | .ok xs =>
      match f n with
      | .error e => .error e
      | .ok x => .ok (xs ++ [x])

/-- `for i in 0 .. n-1` on a value. -/
def loop {σ : Type} (f : Nat → σ → σ) : Nat → σ → σ
  | 0, s => s
  | n + 1, s => f n (loop f n s)

/-- The lowest `i < n` with `p i`. -/
def firstSuch (p : Nat → Bool) : Nat → Option Nat
  | 0 => none
  | n + 1 =>
    match firstSuch p n with
    | some i => some i
    | none => if p n then some n else none

/-! Words -/

/-- "Values wider than 32 bits are saturated to 0xFFFF_FFFF" (R411). -/
def sat32 (n : Nat) : Word := BitVec.ofNat 32 (min n 0xFFFFFFFF)

/-- `argb(a, r, g, b)` (R19). -/
def argb (a r g b : Byte) : Word := a ++ r ++ g ++ b

/-- The channels of a pixel word (R19). -/
def pixA (p : Word) : Byte := p.extractLsb' 24 8
def pixR (p : Word) : Byte := p.extractLsb' 16 8
def pixG (p : Word) : Byte := p.extractLsb' 8 8
def pixB (p : Word) : Byte := p.extractLsb' 0 8

/-! Errors -/

/-- The errors by name (R410). `malformedHeader` is the host's (R412). -/
inductive ErrCode where
  | malformedHeader
  | unsupportedFormat
  | unsupportedBitDepth
  | unsupportedCompression
  | malformedPalette
  | indexOutOfRange
  | invalidColorMask
  | invalidChannelOrder
  | truncatedInput
  | outputTooSmall
  | paletteOverflow
  | illegalCommand
deriving DecidableEq, Repr

/-- The number ERRCODE holds (R410). -/
def ErrCode.code : ErrCode → BitVec 4
  | .malformedHeader => 1#4
  | .unsupportedFormat => 2#4
  | .unsupportedBitDepth => 3#4
  | .unsupportedCompression => 4#4
  | .malformedPalette => 5#4
  | .indexOutOfRange => 6#4
  | .invalidColorMask => 7#4
  | .invalidChannelOrder => 8#4
  | .truncatedInput => 9#4
  | .outputTooSmall => 10#4
  | .paletteOverflow => 11#4
  | .illegalCommand => 12#4

/-- A raised error with its detail (R204, R411). -/
structure CmdError where
  code : ErrCode
  info : Word
  row : Word
  col : Word
deriving DecidableEq, Repr

/-- The bounds check before every INMEM read (R104): the range `[a, a + n)` must lie below IN_LEN. -/
def checkRange (a n : Nat) (inLen : Word) : Option CmdError :=
  if inLen.toNat < a + n then some ⟨.truncatedInput, sat32 (a + n), 0, 0⟩ else none

/-! The life of a command -/

/-- Acceptance of word `w` (R200), with a latency of `delay` steps: the registers as `Regs.accepted` says, the command
pending with the snapshot of all registers, and for a DECODE the cursor at the first pixel (R46). -/
def State.accept (w : Word) (delay : Nat) (s : State) : State :=
  { s with regs := s.regs.accepted w,
           pending := some ⟨w, s.regs.accepted w, delay⟩,
           cursor := if w = 5#32 then some ⟨0, 0⟩ else none }

/-- Completion without error (R201): the engine is idle again. -/
def State.succeed (s : State) : State :=
  { s with regs := s.regs.succeeded, pending := none, cursor := none }

/-- Completion with an error (R201, R445): the block's one way of taking an exception. It saves no return address and
changes no mode; it records the code and the detail, sets STATUS.ERR and STATUS.DONE, and the engine is idle again. -/
def State.raise (e : CmdError) (s : State) : State :=
  { s with regs := s.regs.failed e.code.code e.info e.row e.col, pending := none, cursor := none }

/-- The host's acknowledgement (R446): there is no return-from-error operation; a W1C write of STATUS leaves ERR and the
error registers readable. -/
def State.acknowledge (s : State) : State :=
  { s with regs := s.regs.writeStatus 2#32 }

/-! Unspecified values -/

/-- The `n`-th free palette entry. -/
def freeEntry (n : Nat) : PalEntry :=
  let w := Config.freeWord n
  ⟨pixB w, pixG w, pixR w, pixA w⟩

/-- `k` palette entries of unspecified contents (R254, R460), from draw `d` on. -/
def freeEntries (k d : Nat) : List PalEntry := (List.range k).map fun i => freeEntry (d + i)

/-- OUTMEM bytes 0 .. n-1 become unspecified (R421, R462); every other byte keeps its value. -/
def State.scrambleOut (n : Nat) (s : State) : State :=
  { s with outmem := s.outmem.fill (fun i => Config.freeByte (s.draws + i)) n, draws := s.draws + n }

end Sys2Proof.Machine
end

