-- ==== Sys2Proof/Machine/Operands.lean ====
section
/-! DEFINITION. Where a command's operands come from (`30_encoding.md` R147: every operand is a register value, read at
acceptance), the quantities derived from them (`00_scope.md` R20), and the selections of DECODE's modes. -/

namespace Sys2Proof.Machine

/-- The registers a command reads: the snapshot taken at its acceptance (R45). Where no command is pending they are the
registers themselves, which is what an acceptance would snapshot (log 22). -/
def State.operands (s : State) : Regs :=
  match s.pending with
  | some p => p.snap
  | none => s.regs

namespace Regs

/-- `sint32(x[WIDTH])` (R15, R50). -/
def widthInt (r : Regs) : Int := r.width.toInt

/-- `sint32(x[HEIGHT])` (R15, R51). -/
def heightInt (r : Regs) : Int := r.height.toInt

/-- `W` (R20); a negative width is rejected before it is used (R221). -/
def imageWidth (r : Regs) : Nat := r.widthInt.toNat

/-- `H'` (R20): "unsigned row count". -/
def rowCount (r : Regs) : Nat := r.heightInt.natAbs

/-- `stored_top_down` (R20): "negative height means rows are stored top-down". -/
def storedTopDown (r : Regs) : Bool := decide (r.heightInt < 0)

/-- `S = rowBytes` (R20): bytes per stored row; 0 for 0 bpp. -/
def rowBytes (r : Regs) : Nat := ((r.imageWidth * r.bpp.toNat + 31) / 32) * 4

/-- `P = paddedWidth` (R20): pixels decoded per stored row; not used for 0 bpp. -/
def paddedWidth (r : Regs) : Nat := (r.rowBytes * 8) / r.bpp.toNat

/-- The bytes DECODE writes (R220, R374). -/
def need (r : Regs) : Nat := if r.bpp = 0#16 then 0 else r.imageWidth * r.rowCount * 4

/-- BF of the MODE key (R140). -/
def bitFields (r : Regs) : Bool := decide (r.compression = 3#32)

/-- The MODE key formed from BPP and COMPRESSION (R140, R143). -/
def modeKey (r : Regs) : BitVec 17 := modeKeyOf r.bpp r.bitFields

/-- Whether DECODE reads the masks (R54, R220): COMPRESSION = 3 and BPP 16 or 32. -/
def usesMasks (r : Regs) : Bool := r.bitFields && (r.bpp == 16#16 || r.bpp == 32#16)

/-- FMT.ORDER (R55). -/
def order (r : Regs) : BitVec 3 := r.fmt.extractLsb' 0 3

/-- FMT.TOPDOWN (R55). -/
def topdown (r : Regs) : Bool := r.fmt.getLsbD 3

/-- FMT.OUTFMT (R55). -/
def outfmt (r : Regs) : Bool := r.fmt.getLsbD 4

/-- FMT with other fields. -/
def fmtOf (outfmt topdown : Bool) (order : BitVec 3) : BitVec 5 := BitVec.ofBool outfmt ++ BitVec.ofBool topdown ++ order

/-- The operands with a MODE key selected: BPP as given, and COMPRESSION 3 or 0 as BF says (the two values the
validation of DECODE lets through, R143, R144). -/
def withMode (bpp : BitVec 16) (bf : Bool) (r : Regs) : Regs :=
  { r with bpp := bpp, compression := if bf then 3#32 else 0#32 }

/-- The operands with a COMP value selected. -/
def withComp (comp : Word) (r : Regs) : Regs := { r with compression := comp }

/-- The operands with a channel order selected. -/
def withOrder (ord : BitVec 3) (r : Regs) : Regs := { r with fmt := fmtOf r.outfmt r.topdown ord }

/-- The operands with a requested visual order selected. -/
def withTopdown (b : Bool) (r : Regs) : Regs := { r with fmt := fmtOf r.outfmt b r.order }

/-- The operands with an output format selected. -/
def withOutfmt (b : Bool) (r : Regs) : Regs := { r with fmt := fmtOf b r.topdown r.order }

end Regs

end Sys2Proof.Machine
end

