-- ==== Sys2Proof/Machine/Scanline.lean ====
section
/-! DEFINITION. The scanline padding stripper and reordering engine (`44_scanline.md`): channel order, row order, output
format, and the compose step as its pseudocode gives it (R371). -/

namespace Sys2Proof.Machine

/-- The four bytes of a pixel in the order a channel order names them (R379). -/
structure Quad where
  q0 : Byte
  q1 : Byte
  q2 : Byte
  q3 : Byte
deriving DecidableEq, Repr

/-- ORDER.RGBA (R381). -/
def channelsRgba (p : Word) : Quad := ⟨pixR p, pixG p, pixB p, pixA p⟩

/-- ORDER.BGRA (R382). -/
def channelsBgra (p : Word) : Quad := ⟨pixB p, pixG p, pixR p, pixA p⟩

/-- ORDER.ARGB (R383). -/
def channelsArgb (p : Word) : Quad := ⟨pixA p, pixR p, pixG p, pixB p⟩

/-- ORDER.ABGR (R384). -/
def channelsAbgr (p : Word) : Quad := ⟨pixA p, pixB p, pixG p, pixR p⟩

/-- `channels(p, order)` (R145). Orders 4 to 7 never reach it: DECODE checks the order before it unpacks (R224). -/
def channels (p : Word) (ord : BitVec 3) : Quad :=
  match Sys2Proof.decodeOrder ord with
  | .orderRgba => channelsRgba p
  | .orderBgra => channelsBgra p
  | .orderAbgr => channelsAbgr p
  | _ => channelsArgb p

/-- OUT.BYTES (R380): q0 at the lowest address. -/
def writePixelBytes (m : Memory) (k : Nat) (q : Quad) : Memory :=
  (((m.write k q.q0).write (k + 1) q.q1).write (k + 2) q.q2).write (k + 3) q.q3

/-- The word of a pixel in the packed-word format (R385): q0 in bits 31:24. -/
def quadWord (q : Quad) : Word := q.q0 ++ q.q1 ++ q.q2 ++ q.q3

/-- OUT.WORDS (R385): the word written little-endian. -/
def writePixelWord (m : Memory) (k : Nat) (q : Quad) : Memory := m.writeLE k 4 (quadWord q).toNat

/-- One pixel in the output format that FMT.OUTFMT selects (R146). -/
def writePixel (outfmt : Bool) (m : Memory) (k : Nat) (q : Quad) : Memory :=
  match Sys2Proof.decodeOutfmt outfmt with
  | .outWords => writePixelWord m k q
  | _ => writePixelBytes m k q

/-- The stored row that output row r comes from (R375): the rows are reversed exactly when storage order and requested
order disagree. -/
def sourceRow (storedTopDown wantTopDown : Bool) (rows r : Nat) : Nat :=
  if storedTopDown = wantTopDown then r else rows - 1 - r

/-- `pix[s][c]`. -/
def pixelAt (pix : List (List Word)) (s c : Nat) : Word := (pix.getD s []).getD c 0#32

/-- `compose(pix, W, H', top, fmt)` (R371): columns W .. P-1 are dropped (R373), output rows are packed (R372). -/
def compose (o : Regs) (pix : List (List Word)) (m : Memory) : Memory :=
  loop (fun r m =>
    loop (fun c m =>
      writePixel o.outfmt m (4 * (r * o.imageWidth + c))
        (channels (pixelAt pix (sourceRow o.storedTopDown o.topdown o.rowCount r) c) o.order))
      o.imageWidth m)
    o.rowCount m

end Sys2Proof.Machine
end

