-- ==== Sys2Proof/Machine/Bitfield.lean ====
section
/-! DEFINITION. The bit-field mask extractor and the command BFX (`42_bitfield.md`). Its arithmetic is exact over the
naturals (R13). -/

namespace Sys2Proof.Machine

/-- Zero bits below the lowest set bit, looking at `k` bits at most. -/
def trailingZeros : Nat → Nat → Nat
  | 0, _ => 0
  | k + 1, m => if m % 2 = 1 then 0 else 1 + trailingZeros k (m / 2)

/-- `ctz(m)` of a 32-bit value (R15). -/
def ctz (m : Nat) : Nat := trailingZeros 32 m

/-- Set bits among the lowest `k`. -/
def setBits : Nat → Nat → Nat
  | 0, _ => 0
  | k + 1, m => m % 2 + setBits k (m / 2)

/-- `popcount(m)` of a 32-bit value (R15). -/
def popcount (m : Nat) : Nat := setBits 32 m

/-- `mask_off(m)` (R280). -/
def maskOff (m : Word) : Nat := if m = 0#32 then 0 else ctz m.toNat

/-- `mask_width(m)` (R280). -/
def maskWidth (m : Word) : Nat := if m = 0#32 then 0 else popcount m.toNat

/-- `contiguous(m)` (R281): the set bits form one run; a zero mask is legal (R282). -/
def contiguous (m : Word) : Bool :=
  m == 0#32 || ((m.toNat >>> ctz m.toNat) &&& ((m.toNat >>> ctz m.toNat) + 1)) == 0

/-- `field(p, m)` (R283): "`(pixel & mask) >> offset`". -/
def field (p m : Word) : Nat := (p.toNat &&& m.toNat) >>> maskOff m

/-- `rescale(f, w)` (R286): `round(255 f / (2^w - 1))`, and 0 for a field of no bits. -/
def rescale (f w : Nat) : Nat :=
  if w = 0 then 0
  else
    let d := 2 ^ w - 1
    (2 * 255 * f + d) / (2 * d)

/-- `chan(p, m)` (R282, R289). -/
def chan (p m : Word) : Byte :=
  if m = 0#32 then 0#8 else BitVec.ofNat 8 (rescale (field p m) (maskWidth m))

/-- `bfx(p, mr, mg, mb)` (R292): each channel from the whole word with its own mask (R293), alpha always 0xFF. -/
def bfx (p mr mg mb : Word) : Word := argb 0xFF#8 (chan p mr) (chan p mg) (chan p mb)

/-- The check of one mask; `k` is 0 red, 1 green, 2 blue (R281). -/
def checkMask (k : Word) (m : Word) : Option CmdError :=
  if contiguous m then none else some ⟨.invalidColorMask, m, 0, k⟩

/-- The check of the three masks, red, green, blue in that order (R281, R226). -/
def checkMasks (r : Regs) : Option CmdError :=
  ((checkMask 0 r.rmask).or (checkMask 1 r.gmask)).or (checkMask 2 r.bmask)

/-- BFX (R295). -/
def execBfx (s : State) : Host.Outcome State Fault Refusal :=
  match checkMasks s.operands with
  | some e => .next (s.raise e)
  | none =>
    let o := s.operands
    .next { s with regs := { s.regs with result := bfx o.arg o.rmask o.gmask o.bmask } }.succeed

end Sys2Proof.Machine
end

