-- ==== Sys2Proof/Machine/Palette.lean ====
section
/-! DEFINITION. The palette lookup unit and the commands PAL_LOAD and PAL_LOOKUP (`41_palette.md`). -/

namespace Sys2Proof.Machine

/-- The entry of a palette RAM; the RAM has all 256 (R40), so the default is never taken for an index below 256. -/
def palEntry (pal : List PalEntry) (i : Nat) : PalEntry := pal.getD i ⟨0, 0, 0, 0⟩

/-- `palette_argb(i)` (R256): the entry's red, green and blue with alpha 0xFF. -/
def paletteArgb (pal : List PalEntry) (i : Nat) : Word :=
  let e := palEntry pal i
  argb 0xFF#8 e.r e.g e.b

/-- `lookup(i, s, c)` (R261): IndexOutOfRange where the index is not below PAL_COUNT. -/
def lookup (palCount : BitVec 9) (pal : List PalEntry) (i row col : Nat) : Except CmdError Word :=
  if palCount.toNat ≤ i then .error ⟨.indexOutOfRange, sat32 i, sat32 row, sat32 col⟩ else .ok (paletteArgb pal i)

/-- The i-th 4-byte group of a palette region (R105, R250), its reserved byte taken as 0 (R251). -/
def entryAt (m : Memory) (a i : Nat) : PalEntry :=
  ⟨m.read (a + 4 * i), m.read (a + 4 * i + 1), m.read (a + 4 * i + 2), 0#8⟩

/-- The reserved byte of the i-th group. -/
def reservedAt (m : Memory) (a i : Nat) : Byte := m.read (a + 4 * i + 3)

/-- The checks of PAL_LOAD in the order of its pseudocode (R251, R252, R253): the region's extent, the reserved byte of
every entry, the number of entries. -/
def palLoadError (o : Regs) (m : Memory) : Option CmdError :=
  let a := o.palBase.toNat
  let n := o.palLen.toNat / 4
  match checkRange a o.palLen.toNat o.inLen with
  | some e => some e
  | none =>
    match firstSuch (fun i => reservedAt m a i != 0#8) n with
    | some i => some ⟨.malformedPalette, sat32 i, 0, (reservedAt m a i).setWidth 32⟩
    | none => if Config.palMax < n then some ⟨.paletteOverflow, sat32 n, 0, 0⟩ else none

/-- PAL_LOAD (R251). On an error the palette is empty and its contents unspecified (R254); on success the entries above
the loaded ones are unspecified (log 26). -/
def execPalLoad (s : State) : Host.Outcome State Fault Refusal :=
  let o := s.operands
  match palLoadError o s.inmem with
  | some e =>
    .next ({ s with regs := { s.regs with palCount := 0 }, pal := freeEntries Config.palMax s.draws,
                    draws := s.draws + Config.palMax }.raise e)
  | none =>
    let n := o.palLen.toNat / 4
    let entries := (List.range n).map (entryAt s.inmem o.palBase.toNat)
    .next { s with regs := { s.regs with palCount := BitVec.ofNat 9 n },
                   pal := entries ++ freeEntries (Config.palMax - n) s.draws,
                   draws := s.draws + Config.palMax }.succeed

/-- PAL_LOOKUP (R260): the index is all 32 bits of ARG. -/
def execPalLookup (s : State) : Host.Outcome State Fault Refusal :=
  let o := s.operands
  match lookup o.palCount s.pal o.arg.toNat 0 0 with
  | .error e => .next (s.raise e)
  | .ok p => .next { s with regs := { s.regs with result := p } }.succeed

end Sys2Proof.Machine
end

