-- ==== Sys2Proof/Machine/Unpack.lean ====
section
/-! DEFINITION. The pixel unpacker (`43_unpack.md`): one function per unpack path, the path chosen by the MODE key
(`30_encoding.md` R143), and the pixel sequence in storage order (R320, R321). -/

namespace Sys2Proof.Machine

/-- The first byte of stored row s (R321): `PIX_BASE + s·S`. -/
def rowStart (o : Regs) (s : Nat) : Nat := o.pixBase.toNat + s * o.rowBytes

/-- UNPACK.1's index (R326): "each byte yields 8 pixels, most-significant bit first". -/
def index1 (o : Regs) (m : Memory) (s c : Nat) : Nat :=
  ((m.read (rowStart o s + c / 8)).toNat >>> (7 - c % 8)) % 2

/-- UNPACK.4's index (R327): "high nibble then low nibble". -/
def index4 (o : Regs) (m : Memory) (s c : Nat) : Nat :=
  let byte := (m.read (rowStart o s + c / 2)).toNat
  if c % 2 = 0 then byte / 16 else byte % 16

/-- UNPACK.8's index (R328): "each byte is one palette index". -/
def index8 (o : Regs) (m : Memory) (s c : Nat) : Nat := (m.read (rowStart o s + c)).toNat

/-- UNPACK.1 (R326). -/
def unpackPixel1 (o : Regs) (pal : List PalEntry) (m : Memory) (s c : Nat) : Except CmdError Word :=
  lookup o.palCount pal (index1 o m s c) s c

/-- UNPACK.4 (R327). -/
def unpackPixel4 (o : Regs) (pal : List PalEntry) (m : Memory) (s c : Nat) : Except CmdError Word :=
  lookup o.palCount pal (index4 o m s c) s c

/-- UNPACK.8 (R328). -/
def unpackPixel8 (o : Regs) (pal : List PalEntry) (m : Memory) (s c : Nat) : Except CmdError Word :=
  lookup o.palCount pal (index8 o m s c) s c

/-- UNPACK.16.555 (R329, R290): the fixed 5-5-5 masks. -/
def unpackPixel16x555 (o : Regs) (m : Memory) (s c : Nat) : Word :=
  bfx (m.word16 (rowStart o s + 2 * c)) Config.red555 Config.green555 Config.blue555

/-- UNPACK.16.BF (R330): the host's masks. -/
def unpackPixel16bf (o : Regs) (m : Memory) (s c : Nat) : Word :=
  bfx (m.word16 (rowStart o s + 2 * c)) o.rmask o.gmask o.bmask

/-- UNPACK.24 (R331): "each 3-byte group is stored blue, green, red (in that order)". -/
def unpackPixel24 (o : Regs) (m : Memory) (s c : Nat) : Word :=
  let a := rowStart o s + 3 * c
  argb 0xFF#8 (m.read (a + 2)) (m.read (a + 1)) (m.read a)

/-- UNPACK.32.RGB (R332): the low 24 bits, alpha forced. -/
def unpackPixel32rgb (o : Regs) (m : Memory) (s c : Nat) : Word :=
  0xFF000000#32 ||| (m.word32 (rowStart o s + 4 * c) &&& 0x00FFFFFF#32)

/-- UNPACK.32.BF (R333): the host's masks. -/
def unpackPixel32bf (o : Regs) (m : Memory) (s c : Nat) : Word :=
  bfx (m.word32 (rowStart o s + 4 * c)) o.rmask o.gmask o.bmask

/-- The pixel of stored row s, column c, by the path the MODE key selects (R143). The last arm is the document's
"explicit 'unreachable/unsupported' arm": validation has let only legal depths through, and 0 bpp has no pixel (R325). -/
def unpackPixel (o : Regs) (pal : List PalEntry) (m : Memory) (s c : Nat) : Except CmdError Word :=
  match Sys2Proof.decodeMode o.modeKey with
  | .ok (.unpack1 _) => unpackPixel1 o pal m s c
  | .ok (.unpack4 _) => unpackPixel4 o pal m s c
  | .ok (.unpack8 _) => unpackPixel8 o pal m s c
  | .ok .unpack16x555 => .ok (unpackPixel16x555 o m s c)
  | .ok .unpack16bf => .ok (unpackPixel16bf o m s c)
  | .ok (.unpack24 _) => .ok (unpackPixel24 o m s c)
  | .ok .unpack32rgb => .ok (unpackPixel32rgb o m s c)
  | .ok .unpack32bf => .ok (unpackPixel32bf o m s c)
  | _ => .error ⟨.unsupportedBitDepth, o.bpp.setWidth 32, 0, 0⟩

/-- Stored row s: columns 0 .. P-1, padding pixels included (R320, R322). -/
def unpackRow (o : Regs) (pal : List PalEntry) (m : Memory) (s : Nat) : Except CmdError (List Word) :=
  collect (unpackPixel o pal m s) o.paddedWidth

/-- The pixel sequence: every stored row in storage order (R320, R321); the first failing pixel ends it (R323). With
0 bpp the sequence is empty (R325). -/
def unpackAll (o : Regs) (pal : List PalEntry) (m : Memory) : Except CmdError (List (List Word)) :=
  if o.bpp = 0#16 then .ok [] else collect (unpackRow o pal m) o.rowCount

end Sys2Proof.Machine
end

