-- ==== Sys2Proof/Machine/DecodeCommand.lean ====
section
/-! DEFINITION. The command DECODE (`40_commands.md` R220 to R228): seven checks in order, then the unpacker, then the
composer. `runDecode` is the command on given operands; `execDecode` and the mode rows' meanings call it. -/

namespace Sys2Proof.Machine

/-- Check 1 (R221): a negative height needs compression 0 or 3; a negative width is no image. -/
def checkFormat (o : Regs) : Option CmdError :=
  if o.heightInt < 0 ∧ ¬(o.compression = 0#32 ∨ o.compression = 3#32) then some ⟨.unsupportedFormat, 1, 0, 0⟩
  else if o.widthInt < 0 then some ⟨.unsupportedFormat, 2, 0, 0⟩
  else none

/-- Check 2 (R222): every compression value but 0 and 3 is rejected. -/
def checkCompression (o : Regs) : Option CmdError :=
  if o.compression = 0#32 ∨ o.compression = 3#32 then none
  else some ⟨.unsupportedCompression, o.compression, 0, 0⟩

/-- The legal bit depths (R52). -/
def legalDepth (bpp : BitVec 16) : Bool :=
  [0#16, 1#16, 4#16, 8#16, 16#16, 24#16, 32#16].contains bpp

/-- Check 3 (R223): the bit depth. -/
def checkDepth (o : Regs) : Option CmdError :=
  if legalDepth o.bpp then none else some ⟨.unsupportedBitDepth, o.bpp.setWidth 32, 0, 0⟩

/-- Check 4 (R226): the masks, only where the masks are used. -/
def checkUsedMasks (o : Regs) : Option CmdError := if o.usesMasks then checkMasks o else none

/-- Check 5 (R224): the channel order. -/
def checkOrder (o : Regs) : Option CmdError :=
  if 3 < o.order.toNat then some ⟨.invalidChannelOrder, o.order.setWidth 32, 0, 0⟩ else none

/-- Check 6 (R225): the output fits in OUT_LEN, computed without wrap-around. -/
def checkOutput (o : Regs) : Option CmdError :=
  if o.outLen.toNat < o.need then some ⟨.outputTooSmall, sat32 o.need, 0, 0⟩ else none

/-- Check 7 (R228): the pixel data of all stored rows lies below IN_LEN. -/
def checkInput (o : Regs) : Option CmdError := checkRange o.pixBase.toNat (o.rowBytes * o.rowCount) o.inLen

/-- The validation of DECODE: the first failing check is the one reported (R204, R440). -/
def decodeError (o : Regs) : Option CmdError :=
  (checkFormat o).or <| (checkCompression o).or <| (checkDepth o).or <| (checkUsedMasks o).or <|
    (checkOrder o).or <| (checkOutput o).or (checkInput o)

/-- `perform(DECODE)` on operands `o` (R220). Where a pixel's index is out of range, OUTMEM bytes 0 .. need-1 are
unspecified (R421). -/
def runDecode (o : Regs) (s : State) : Host.Outcome State Fault Refusal :=
  match decodeError o with
  | some e => .next (s.raise e)
  | none =>
    match unpackAll o s.pal s.inmem with
    | .error e => .next ((s.scrambleOut o.need).raise e)
    | .ok pix =>
      .next { s with outmem := if o.bpp = 0#16 then s.outmem else compose o pix s.outmem,
                     regs := { s.regs with outCount := BitVec.ofNat 32 o.need } }.succeed

/-- DECODE (R220). -/
def execDecode (s : State) : Host.Outcome State Fault Refusal := runDecode s.operands s

end Sys2Proof.Machine
end

