-- ==== Sys2Proof/Machine/Registers.lean ====
section
/-! DEFINITION. The register map (`10_state.md` R32): which register stands at an offset, what a read of it gives, what
a host write of it does. CMD's write is an action and stands in `Bus.lean`. -/

namespace Sys2Proof.Machine

/-- The registers of the map, PALWIN apart (R32). -/
inductive Reg where
  | id | cmd | status | errcode | errinfo | errrow | errcol | irqen
  | width | height | bpp | compression | rmask | gmask | bmask | fmt
  | pixBase | inLen | outLen | palBase | palLen | maskBase | palCount | arg | result | outCount
deriving DecidableEq, Repr

/-- The offsets of R32. -/
def Reg.offset : Reg → Word
  | .id => 0x000#32
  | .cmd => 0x004#32
  | .status => 0x008#32
  | .errcode => 0x00C#32
  | .errinfo => 0x010#32
  | .errrow => 0x014#32
  | .errcol => 0x018#32
  | .irqen => 0x01C#32
  | .width => 0x020#32
  | .height => 0x024#32
  | .bpp => 0x028#32
  | .compression => 0x02C#32
  | .rmask => 0x030#32
  | .gmask => 0x034#32
  | .bmask => 0x038#32
  | .fmt => 0x03C#32
  | .pixBase => 0x040#32
  | .inLen => 0x044#32
  | .outLen => 0x048#32
  | .palBase => 0x04C#32
  | .palLen => 0x050#32
  | .maskBase => 0x054#32
  | .palCount => 0x058#32
  | .arg => 0x05C#32
  | .result => 0x060#32
  | .outCount => 0x064#32

/-- The map in address order. -/
def Reg.all : List Reg :=
  [.id, .cmd, .status, .errcode, .errinfo, .errrow, .errcol, .irqen, .width, .height, .bpp, .compression,
    .rmask, .gmask, .bmask, .fmt, .pixBase, .inLen, .outLen, .palBase, .palLen, .maskBase, .palCount, .arg,
    .result, .outCount]

/-- The name of a register of R32, the 256 PALWIN registers included. -/
inductive RegName where
  | reg (r : Reg)
  | palwin (i : Fin 256)
deriving DecidableEq, Repr

/-- The offset of a named register (R32): PALWIN of entry i stands at `0x400 + 4i`. -/
def RegName.offset : RegName → Word
  | .reg r => r.offset
  | .palwin i => BitVec.ofNat 32 (0x400 + 4 * i.val)

/-- What stands at an offset. -/
inductive Target where
  | reg (r : Reg)
  /-- PALWIN of entry `i` (R42) -/
  | palwin (i : Nat)
  /-- reserved or unmapped (R64) -/
  | reserved
deriving DecidableEq, Repr

/-- The address decoder (R32, R42, R64). -/
def target (off : Word) : Target :=
  match Reg.all.find? fun r => r.offset == off with
  | some r => .reg r
  | none => if 0x400 ≤ off.toNat ∧ off.toNat < 0x800 then .palwin ((off.toNat - 0x400) / 4) else .reserved

/-- What a read of a register gives (R31 to R64): reserved bits read 0. -/
def State.readReg (s : State) : Reg → Word
  | .id => Config.idValue
  | .cmd => s.regs.cmd
  | .status => s.status
  | .errcode => s.regs.errcode.setWidth 32
  | .errinfo => s.regs.errinfo
  | .errrow => s.regs.errrow
  | .errcol => s.regs.errcol
  | .irqen => (BitVec.ofBool s.regs.ie).setWidth 32
  | .width => s.regs.width
  | .height => s.regs.height
  | .bpp => s.regs.bpp.setWidth 32
  | .compression => s.regs.compression
  | .rmask => s.regs.rmask
  | .gmask => s.regs.gmask
  | .bmask => s.regs.bmask
  | .fmt => s.regs.fmt.setWidth 32
  | .pixBase => s.regs.pixBase
  | .inLen => s.regs.inLen
  | .outLen => s.regs.outLen
  | .palBase => s.regs.palBase
  | .palLen => s.regs.palLen
  | .maskBase => s.regs.maskBase
  | .palCount => s.regs.palCount.setWidth 32
  | .arg => s.regs.arg
  | .result => s.regs.result
  | .outCount => s.regs.outCount

/-- The value of a PALWIN register of a loaded entry (R42): `{RSV, R, G, B}`. -/
def PalEntry.word (e : PalEntry) : Word := argb e.rsv e.r e.g e.b

/-- What a host write of a register stores while the block is idle (R32): RW registers take the value cut to their
width, STATUS clears DONE on bit 1, read-only registers ignore it (R64). CMD is not written here. -/
def Regs.write (v : Word) (r : Regs) : Reg → Regs
  | .status => r.writeStatus v
  | .irqen => { r with ie := v.getLsbD 0 }
  | .width => { r with width := v }
  | .height => { r with height := v }
  | .bpp => { r with bpp := v.setWidth 16 }
  | .compression => { r with compression := v }
  | .rmask => { r with rmask := v }
  | .gmask => { r with gmask := v }
  | .bmask => { r with bmask := v }
  | .fmt => { r with fmt := v.setWidth 5 }
  | .pixBase => { r with pixBase := v }
  | .inLen => { r with inLen := v }
  | .outLen => { r with outLen := v }
  | .palBase => { r with palBase := v }
  | .palLen => { r with palLen := v }
  | .maskBase => { r with maskBase := v }
  | .arg => { r with arg := v }
  | .id | .cmd | .errcode | .errinfo | .errrow | .errcol | .palCount | .result | .outCount => r

end Sys2Proof.Machine
end

