-- ==== Sys2Proof/Machine/Bus.lean ====
section
/-! DEFINITION. The host's side of the block (`00_scope.md` R22, `20_memory.md` R110 to R115): one definition for each
bus operation, reset (`70_reset_and_hazards.md` R460 to R462) and the hazard of R476. -/

namespace Sys2Proof.Machine

/-- An MMIO access inside the block's interface (R110): 32 bits wide, at a multiple of 4. -/
def mmioOk (off : Word) (size : Nat) : Bool := size == 4 && off.toNat % 4 == 0

/-- A free word as read data. -/
def State.readFree (s : State) : State := { s with busData := Config.freeWord s.draws, draws := s.draws + 1 }

/-- An aligned 32-bit MMIO read (R32, R42, R64): a PALWIN entry at or above PAL_COUNT reads a free word (log 5), and so
does anything while `rst` is asserted (R461, log 13). It changes nothing of the block (R110). -/
def State.mmioRead (off : Word) (s : State) : State :=
  if s.rst then s.readFree
  else match target off with
    | .reg r => { s with busData := s.readReg r }
    | .palwin i => if i < s.regs.palCount.toNat then { s with busData := (palEntry s.pal i).word } else s.readFree
    | .reserved => { s with busData := 0 }

/-- An aligned 32-bit MMIO write: ignored while BUSY = 1 (R475) and while `rst` is asserted (R461); a write of CMD is
accepted and starts the command with a free latency (R34, R200, R202). -/
def State.mmioWrite (off : Word) (v : Word) (s : State) : State :=
  if s.rst || s.busy then s
  else match target off with
    | .reg .cmd => { s.accept v (Config.latency s.draws) with draws := s.draws + 1 }
    | .reg r => { s with regs := s.regs.write v r }
    | .palwin _ => s
    | .reserved => s

/-- The INMEM bytes the pending command reads, as a base and a length (R476): a command whose checks fail before it
reads reads none (R104, log 15). -/
def State.commandReads (s : State) : Nat × Nat :=
  match s.pending with
  | none => (0, 0)
  | some p =>
    let o := p.snap
    match Sys2Proof.decodeCmd p.word with
    | .palLoad => if (checkRange o.palBase.toNat o.palLen.toNat o.inLen).isNone then (o.palBase.toNat, o.palLen.toNat) else (0, 0)
    | .maskLoad => if (checkRange o.maskBase.toNat 12 o.inLen).isNone then (o.maskBase.toNat, 12) else (0, 0)
    | .decode => if (decodeError o).isNone then (o.pixBase.toNat, o.rowBytes * o.rowCount) else (0, 0)
    | _ => (0, 0)

/-- Whether the pending command reads INMEM byte `a`. -/
def State.readsByte (s : State) (a : Nat) : Bool :=
  s.commandReads.1 ≤ a && a < s.commandReads.1 + s.commandReads.2

/-- A host write of one INMEM byte (R22). -/
def State.hostWriteIn (a : Word) (b : Byte) (s : State) : Host.Outcome State Fault Refusal :=
  if a.toNat = Config.memTop then .fault .inmemAddress
  else if s.readsByte a.toNat then .refused .inmemHazard
  else .next { s with inmem := s.inmem.write a.toNat b }

/-- A host read of one OUTMEM byte (R114): below OUT_LEN while BUSY = 1 it is unspecified (log 20). -/
def State.hostReadOut (a : Word) (s : State) : Host.Outcome State Fault Refusal :=
  if a.toNat = Config.memTop then .fault .outmemAddress
  else if s.busy && a.toNat < s.regs.outLen.toNat then
    .next { s with outData := Config.freeByte s.draws, draws := s.draws + 1 }
  else .next { s with outData := s.outmem.read a.toNat }

/-- Whether the pending command writes OUTMEM, which only DECODE does (R100). -/
def State.mayHaveWritten (s : State) : Bool :=
  match s.pending with
  | some p => p.word == 5#32
  | none => false

/-- Reset (R460, R462): every register at its reset value, the palette unspecified, no pending command; where a DECODE
was pending, OUTMEM bytes 0 .. OUT_LEN-1 are unspecified. INMEM and the rest of OUTMEM are not the block's. -/
def State.resetBlock (s : State) : State :=
  let s' := if s.mayHaveWritten then s.scrambleOut s.regs.outLen.toNat else s
  { s' with regs := Regs.reset, pal := freeEntries Config.palMax s'.draws, draws := s'.draws + Config.palMax,
            pending := none, cursor := none }

/-- Whether DECODE on operands `o` writes platform bytes that it also reads (R478), on a platform that maps both memories
onto one (`shared`) at the given bases: "DECODE's output range (OUT_SYS_BASE + 0 .. need-1)" against the pixel data. A
DECODE whose checks fail reads and writes nothing (R104, R421). -/
def memoryOverlap (shared : Bool) (inBase outBase : Nat) (o : Regs) : Bool :=
  (decodeError o).isNone && decide (0 < o.need) && decide (0 < o.rowBytes * o.rowCount) && shared &&
    decide (inBase + o.pixBase.toNat < outBase + o.need) &&
    decide (outBase < inBase + o.pixBase.toNat + o.rowBytes * o.rowCount)

/-- Whether the MMIO write is the acceptance of a DECODE that R478 forbids on this platform (log 30). -/
def State.startsOverlap (off : Word) (v : Word) (s : State) : Bool :=
  !s.rst && !s.busy && decide (target off = .reg .cmd) && decide (v = 5#32) &&
    memoryOverlap Config.sharedMemory Config.inSysBase Config.outSysBase s.regs

/-- A host write inside the block's interface (R110, R478). -/
def State.hostWrite (off : Word) (v : Word) (s : State) : Host.Outcome State Fault Refusal :=
  if s.startsOverlap off v then .refused .memoryOverlap else .next (s.mmioWrite off v)

/-- OUTB of `n` bytes from address `a` on. -/
def outbFrom (a n : Nat) : List HostOp := (List.range n).map fun k => .outb (BitVec.ofNat 32 (a + k))

/-- The host drives `rst` (R461): asserting it resets the block, which then ignores every MMIO access until it is
deasserted. -/
def State.driveReset (level : Bool) (s : State) : State :=
  if level then { s.resetBlock with rst := true } else { s with rst := false }

/-- One bus operation of the host, already taken off its list. WAIT stands again at the head of the list while the
STATUS it reads has bit 0 set (R149). -/
def State.hostOp (op : HostOp) (s : State) : Host.Outcome State Fault Refusal :=
  match op with
  | .wr off size v => if mmioOk off size then s.hostWrite off v else .refused .mmioAccess
  | .rd off size => if mmioOk off size then .next (s.mmioRead off) else .refused .mmioAccess
  | .inb a b => s.hostWriteIn a b
  | .outb a => s.hostReadOut a
  | .rst level => .next (s.driveReset level)
  | .wait =>
    let s' := s.mmioRead Reg.status.offset
    .next (if s'.busData.getLsbD 0 then { s' with host := .wait :: s'.host } else s')
  | .stopOnErr => .next (if s.busData.getLsbD 2 then { s with host := [] } else s)
  | .outbCount =>
    let s' := s.mmioRead Reg.outCount.offset
    .next { s' with host := outbFrom 0 s'.busData.toNat ++ s'.host }
  | .idle => .next s

/-- The host's turn: its next operation, or nothing where it has none. -/
def State.hostTurn (s : State) : Host.Outcome State Fault Refusal :=
  match s.host with
  | [] => .next s
  | op :: rest => { s with host := rest }.hostOp op

/-- Whether the host's next operation asserts `rst`. -/
def State.resetNext (s : State) : Bool :=
  match s.host with
  | .rst true :: _ => true
  | _ => false

end Sys2Proof.Machine
end

