-- ==== Sys2Proof/Machine/Modes.lean ====
section
/-! DEFINITION. The decode modes of `opcode_table.json` as instructions (R3): the DECODE command in that mode. A mode's
meaning is DECODE with the mode's own field selected as its row encodes it, the other fields as the operands have them
(log 8); where the operands already select the mode it is exactly DECODE. -/

namespace Sys2Proof.Machine

/-- UNPACK.0 (R325): no pixel, no read, success with OUT_COUNT = 0 once the checks pass. -/
def execUnpack0 (bf : Bool) (s : State) : Host.Outcome State Fault Refusal := runDecode (s.operands.withMode 0#16 bf) s

/-- UNPACK.1 (R326). -/
def execUnpack1 (bf : Bool) (s : State) : Host.Outcome State Fault Refusal := runDecode (s.operands.withMode 1#16 bf) s

/-- UNPACK.4 (R327). -/
def execUnpack4 (bf : Bool) (s : State) : Host.Outcome State Fault Refusal := runDecode (s.operands.withMode 4#16 bf) s

/-- UNPACK.8 (R328). -/
def execUnpack8 (bf : Bool) (s : State) : Host.Outcome State Fault Refusal := runDecode (s.operands.withMode 8#16 bf) s

/-- UNPACK.16.555 (R329). -/
def execUnpack16x555 (s : State) : Host.Outcome State Fault Refusal := runDecode (s.operands.withMode 16#16 false) s

/-- UNPACK.16.BF (R330). -/
def execUnpack16bf (s : State) : Host.Outcome State Fault Refusal := runDecode (s.operands.withMode 16#16 true) s

/-- UNPACK.24 (R331). -/
def execUnpack24 (bf : Bool) (s : State) : Host.Outcome State Fault Refusal := runDecode (s.operands.withMode 24#16 bf) s

/-- UNPACK.32.RGB (R332). -/
def execUnpack32rgb (s : State) : Host.Outcome State Fault Refusal := runDecode (s.operands.withMode 32#16 false) s

/-- UNPACK.32.BF (R333). -/
def execUnpack32bf (s : State) : Host.Outcome State Fault Refusal := runDecode (s.operands.withMode 32#16 true) s

/-- REJECT.RLE8 (R340). -/
def execRejectRle8 (s : State) : Host.Outcome State Fault Refusal := runDecode (s.operands.withComp 1#32) s

/-- REJECT.RLE4 (R340). -/
def execRejectRle4 (s : State) : Host.Outcome State Fault Refusal := runDecode (s.operands.withComp 2#32) s

/-- REJECT.JPEG (R340). -/
def execRejectJpeg (s : State) : Host.Outcome State Fault Refusal := runDecode (s.operands.withComp 4#32) s

/-- REJECT.PNG (R340). -/
def execRejectPng (s : State) : Host.Outcome State Fault Refusal := runDecode (s.operands.withComp 5#32) s

/-- REJECT.OTHER (R341). -/
def execRejectOther (comp : Word) (s : State) : Host.Outcome State Fault Refusal := runDecode (s.operands.withComp comp) s

/-- ORDER.RGBA (R381). -/
def execOrderRgba (s : State) : Host.Outcome State Fault Refusal := runDecode (s.operands.withOrder 0#3) s

/-- ORDER.BGRA (R382). -/
def execOrderBgra (s : State) : Host.Outcome State Fault Refusal := runDecode (s.operands.withOrder 1#3) s

/-- ORDER.ARGB (R383). -/
def execOrderArgb (s : State) : Host.Outcome State Fault Refusal := runDecode (s.operands.withOrder 2#3) s

/-- ORDER.ABGR (R384). -/
def execOrderAbgr (s : State) : Host.Outcome State Fault Refusal := runDecode (s.operands.withOrder 3#3) s

/-- ORDER.INVALID (R224). -/
def execOrderInvalid (ord : BitVec 3) (s : State) : Host.Outcome State Fault Refusal :=
  runDecode (s.operands.withOrder ord) s

/-- ORIENT.TOPDOWN (R375). -/
def execOrientTopdown (s : State) : Host.Outcome State Fault Refusal := runDecode (s.operands.withTopdown true) s

/-- ORIENT.BOTTOMUP (R375). -/
def execOrientBottomup (s : State) : Host.Outcome State Fault Refusal := runDecode (s.operands.withTopdown false) s

/-- OUT.BYTES (R380). -/
def execOutBytes (s : State) : Host.Outcome State Fault Refusal := runDecode (s.operands.withOutfmt false) s

/-- OUT.WORDS (R385). -/
def execOutWords (s : State) : Host.Outcome State Fault Refusal := runDecode (s.operands.withOutfmt true) s

end Sys2Proof.Machine
end

