-- ==== Sys2Proof/Machine/Sequencer.lean ====
section
/-! DEFINITION. The sequencer's own commands (`40_commands.md` R205, R206, R210): NOP, illegal words, MASK_LOAD. Each
meaning is the completion step of a pending command (R201); its acceptance is `State.accept`. -/

namespace Sys2Proof.Machine

/-- NOP (R205): `perform(NOP) = success`. -/
def execNop (s : State) : Host.Outcome State Fault Refusal := .next s.succeed

/-- An illegal command word (R206): IllegalCommand, always, with ERRINFO the word. -/
def execIllegal (w : Word) (s : State) : Host.Outcome State Fault Refusal :=
  .next (s.raise ⟨.illegalCommand, w, 0, 0⟩)

/-- MASK_LOAD (R210): three little-endian words; no contiguity check. -/
def execMaskLoad (s : State) : Host.Outcome State Fault Refusal :=
  let o := s.operands
  let a := o.maskBase.toNat
  match checkRange a 12 o.inLen with
  | some e => .next (s.raise e)
  | none =>
    .next { s with regs := { s.regs with rmask := s.inmem.word32 a, gmask := s.inmem.word32 (a + 4),
                                         bmask := s.inmem.word32 (a + 8) } }.succeed

end Sys2Proof.Machine
end

