-- ==== Sys2Proof/Machine/Dispatch.lean ====
section
/-! DEFINITION. One arm per instruction: the completion step of the instruction (R201). -/

namespace Sys2Proof.Machine

def exec (i : Instr) (s : State) : Host.Outcome State Fault Refusal :=
  match i with
  | .nop => Sys2Proof.Machine.execNop s
  | .palLoad => Sys2Proof.Machine.execPalLoad s
  | .maskLoad => Sys2Proof.Machine.execMaskLoad s
  | .bfx => Sys2Proof.Machine.execBfx s
  | .palLookup => Sys2Proof.Machine.execPalLookup s
  | .decode => Sys2Proof.Machine.execDecode s
  | .illegal w => Sys2Proof.Machine.execIllegal w s
  | .unpack0 bf => Sys2Proof.Machine.execUnpack0 bf s
  | .unpack1 bf => Sys2Proof.Machine.execUnpack1 bf s
  | .unpack4 bf => Sys2Proof.Machine.execUnpack4 bf s
  | .unpack8 bf => Sys2Proof.Machine.execUnpack8 bf s
  | .unpack16x555 => Sys2Proof.Machine.execUnpack16x555 s
  | .unpack16bf => Sys2Proof.Machine.execUnpack16bf s
  | .unpack24 bf => Sys2Proof.Machine.execUnpack24 bf s
  | .unpack32rgb => Sys2Proof.Machine.execUnpack32rgb s
  | .unpack32bf => Sys2Proof.Machine.execUnpack32bf s
  | .rejectRle8 => Sys2Proof.Machine.execRejectRle8 s
  | .rejectRle4 => Sys2Proof.Machine.execRejectRle4 s
  | .rejectJpeg => Sys2Proof.Machine.execRejectJpeg s
  | .rejectPng => Sys2Proof.Machine.execRejectPng s
  | .rejectOther comp => Sys2Proof.Machine.execRejectOther comp s
  | .orderRgba => Sys2Proof.Machine.execOrderRgba s
  | .orderBgra => Sys2Proof.Machine.execOrderBgra s
  | .orderArgb => Sys2Proof.Machine.execOrderArgb s
  | .orderAbgr => Sys2Proof.Machine.execOrderAbgr s
  | .orderInvalid ord => Sys2Proof.Machine.execOrderInvalid ord s
  | .orientTopdown => Sys2Proof.Machine.execOrientTopdown s
  | .orientBottomup => Sys2Proof.Machine.execOrientBottomup s
  | .outBytes => Sys2Proof.Machine.execOutBytes s
  | .outWords => Sys2Proof.Machine.execOutWords s

end Sys2Proof.Machine
end

