-- ==== Sys2Proof/Machine/Step.lean ====
section
/-! DEFINITION. One step of the machine (`40_commands.md` R202, `20_memory.md` R115): the completion of the pending
command when its latency is over, else a unit of the latency passes and the host has its turn. Where the host's next
operation coincides with the completion, an access of the host is ordered after it and a reset wins over it
(`60_exceptions.md` R441, log 31). There is no instruction fetch (R33): the instruction a step runs is the one the latched
command word names. -/

namespace Sys2Proof.Machine

/-- One step. -/
def step (s : State) : Host.Outcome State Fault Refusal :=
  match s.pending with
  | some p =>
    if p.delay = 0 ∧ s.resetNext = false then exec (Sys2Proof.decodeCmd p.word) s
    else { s with pending := some { p with delay := p.delay - 1 } }.hostTurn
  | none => s.hostTurn

/-- `s` with the instruction of a table word about to run: the host's CMD write accepted (R200) with its latency over.
A MODE key or an FMT field is selected in the registers it is read from, and the command is the DECODE that reads it
(log 9). -/
def State.withFetchWord (s : State) (nbits w : Nat) : State :=
  let v := BitVec.ofNat 32 w
  let idle := { s with rst := false }
  match Sys2Proof.tableFormat nbits w with
  | .cmd => idle.accept v 0
  | .comp => { idle with regs := s.regs.withComp v }.accept 5#32 0
  | .mode => { idle with regs := s.regs.withMode (v.extractLsb' 1 16) (v.getLsbD 0) }.accept 5#32 0
  | .order => { idle with regs := s.regs.withOrder (v.setWidth 3) }.accept 5#32 0
  | .topdown => { idle with regs := s.regs.withTopdown (v.getLsbD 3) }.accept 5#32 0
  | .outfmt => { idle with regs := s.regs.withOutfmt (v.getLsbD 4) }.accept 5#32 0

end Sys2Proof.Machine
end

