-- ==== Sys2Proof/Machine/HostProgram.lean ====
section
/-! DEFINITION. The host-side syntax (`30_encoding.md` R149) as lists of bus operations, and the host sequence LOADFILE
with the host's header checks (`70_reset_and_hazards.md` R470, R471). These are the host's duties, not the block's; they
say which operations a host that follows the spec makes. -/

namespace Sys2Proof.Machine

/-- `WR <REG>, <v>`, for every register of R32. -/
def hostWR (r : RegName) (v : Word) : HostOp := .wr r.offset 4 v

/-- `RD <REG>`, for every register of R32. -/
def hostRD (r : RegName) : HostOp := .rd r.offset 4

/-- `CMD <mnemonic>`: `WR CMD, <word>`. -/
def hostCMD (i : Instr) : HostOp := hostWR (.reg .cmd) (Sys2Proof.encode i).word

/-- `CLRDONE`: `WR STATUS, 0x0000_0002`. -/
def hostCLRDONE : HostOp := hostWR (.reg .status) 2#32

/-- `SETFMT <order>, <topdown>, <outfmt>`: `WR FMT, (outfmt << 4) + (topdown << 3) + order`. -/
def hostSETFMT (order : BitVec 3) (topdown outfmt : Bool) : HostOp :=
  hostWR (.reg .fmt) ((BitVec.ofBool outfmt ++ BitVec.ofBool topdown ++ order).setWidth 32)

/-- `INB <a>: <bytes>`. -/
def hostINB (a : Nat) : List Byte → List HostOp
  | [] => []
  | b :: bs => .inb (BitVec.ofNat 32 a) b :: hostINB (a + 1) bs

/-- `OUTB <a> .. <b>`. -/
def hostOUTB (a b : Nat) : List HostOp := outbFrom a (b + 1 - a)

/-- The header checks that are the host's (R470). Which failure is reported where both the signature or reserved fields
and the size or plane count are bad is the model's choice, MalformedHeader alone (DESIGN CHOICE, log 29). -/
def headerError (m : Memory) : Option ErrCode :=
  if m.readLE 0 2 ≠ 0x4D42 ∨ m.readLE 6 2 ≠ 0 ∨ m.readLE 8 2 ≠ 0 then some .malformedHeader
  else if m.readLE 14 4 ≠ 40 ∨ m.readLE 26 2 ≠ 1 then some .unsupportedFormat
  else none

/-- LOADFILE (R471) for a file of `len` bytes at INMEM 0: the host's own failure, or its bus operations. -/
def loadFile (m : Memory) (len : Word) (order : BitVec 3) (topdown outfmt : Bool) (outLen : Word) :
    Except ErrCode (List HostOp) :=
  match headerError m with
  | some e => .error e
  | none =>
    let off := m.readLE 10 4
    let mask := m.readLE 30 4 = 3 ∧ (m.readLE 28 2 = 16 ∨ m.readLE 28 2 = 32)
    let pb := if mask then 66 else 54
    let w32 := fun n : Nat => BitVec.ofNat 32 n
    .ok
      ([hostWR (.reg .inLen) len, hostWR (.reg .width) (m.word32 18), hostWR (.reg .height) (m.word32 22),
          hostWR (.reg .bpp) (m.word16 28), hostWR (.reg .compression) (m.word32 30)]
        ++ (if mask then [hostWR (.reg .maskBase) 54#32, hostCMD .maskLoad, .wait, .stopOnErr] else [])
        ++ [hostWR (.reg .palBase) (w32 pb), hostWR (.reg .palLen) (w32 (off - pb)), hostCMD .palLoad, .wait, .stopOnErr,
          hostWR (.reg .pixBase) (w32 off), hostWR (.reg .outLen) outLen, hostSETFMT order topdown outfmt,
          hostCMD .decode, .wait, .stopOnErr, .outbCount])

end Sys2Proof.Machine
end

