-- ==== Sys2Proof/Safety.lean ====
section
/-! DEFINITION. What counts as a good state and a safe run: the invariant that every step keeps, and the host operations
that stay inside the block's interface. -/

namespace Sys2Proof.Machine

/-- The machine's invariant. -/
structure State.Inv (s : State) : Prop where
  /-- the memories keep their canonical form -/
  inmem_wf : s.inmem.wf
  outmem_wf : s.outmem.wf
  /-- the palette RAM has 256 entries (R40) -/
  pal_size : s.pal.length = 256
  /-- PAL_COUNT is 0 .. 256 (R41) -/
  count_le : s.regs.palCount.toNat ≤ 256
  /-- a loaded entry has RSV = 0 (R40) -/
  loaded_rsv : ∀ i < s.regs.palCount.toNat, (palEntry s.pal i).rsv = 0#8
  /-- ERRCODE is 0 or one of the codes the block produces (R410, R412) -/
  code_produced : s.regs.errcode = 0#4 ∨ (2 ≤ s.regs.errcode.toNat ∧ s.regs.errcode.toNat ≤ 12)
  /-- ERR and ERRCODE agree (R201, R36) -/
  err_iff_code : s.regs.err = true ↔ s.regs.errcode ≠ 0#4
  /-- without an error there is no detail (R37) -/
  no_detail : s.regs.err = false → s.regs.errinfo = 0#32 ∧ s.regs.errrow = 0#32 ∧ s.regs.errcol = 0#32
  /-- while busy, DONE and ERR are 0 (R35), and so are RESULT and OUT_COUNT (R62, R63) -/
  busy_cleared : s.busy = true →
    s.regs.done = false ∧ s.regs.err = false ∧ s.regs.result = 0#32 ∧ s.regs.outCount = 0#32
  /-- the snapshot is the registers as they still stand, and the pending word is CMD (R45) -/
  snapshot_eq : ∀ p, s.pending = some p → p.snap = s.regs ∧ p.word = s.regs.cmd
  /-- the cursor exists exactly while a DECODE is pending (R46) -/
  cursor_iff : s.cursor.isSome = true ↔ ∃ p, s.pending = some p ∧ p.word = 5#32
  /-- while `rst` is asserted the block is in its reset state (R461) -/
  held_in_reset : s.rst = true → s.regs = Regs.reset ∧ s.pending = none

/-- A host operation inside the block's interface: aligned 32-bit MMIO accesses (R110), existing addresses (R100), no
INMEM write under a pending command's reads (R476), no start of a DECODE that overwrites what it reads (R478). -/
def HostOp.inInterface (s : State) : HostOp → Bool
  | .wr off size v => mmioOk off size && !s.startsOverlap off v
  | .rd off size => mmioOk off size
  | .inb a _ => decide (a.toNat ≠ Config.memTop) && !s.readsByte a.toNat
  | .outb a => decide (a.toNat ≠ Config.memTop)
  | .rst _ | .wait | .stopOnErr | .outbCount | .idle => true

/-- The next step is the engine's: a command is pending, its latency is over, and no reset wins over it (R441). -/
def State.engineTurn (s : State) : Bool :=
  match s.pending with
  | some p => p.delay == 0 && !s.resetNext
  | none => false

/-- A state from which the next step goes on: the engine's turn always does, the host's does inside the interface. -/
def State.Safe (s : State) : Prop :=
  s.engineTurn = true ∨ ∀ op rest, s.host = op :: rest → op.inInterface s = true

end Sys2Proof.Machine
end

