-- ==== Sys2Proof/Certificates/Slice0/Obligations.lean ====
section
/-! DEFINITION. The statements for the provers, and the few words they are written in (namespace Sys2Proof.Spec): the
completions of a command, DECODE's checks, and what an image in OUTMEM must show, each spelled from the spec's rules and
not from the machine's own functions where the rules allow it. -/

namespace Sys2Proof.Spec

open Sys2Proof.Machine

/-- The state at a completion without error (R201): DONE 1, ERR 0, no code, no detail, the engine idle; all else as in
`s`. -/
def completedOk (s : State) : State :=
  { s with regs := { s.regs with done := true, err := false, errcode := 0#4, errinfo := 0#32, errrow := 0#32,
                                 errcol := 0#32 },
           pending := none, cursor := none }

/-- The state at a completion with an error (R201, R445): DONE 1, ERR 1, the code and the detail, the engine idle; all
else as in `s`. -/
def completedErr (code : Nat) (info row col : Word) (s : State) : State :=
  { s with regs := { s.regs with done := true, err := true, errcode := BitVec.ofNat 4 code, errinfo := info,
                                 errrow := row, errcol := col },
           pending := none, cursor := none }

/-- The registers at an acceptance of word `w` (R200). -/
def acceptedRegs (w : Word) (r : Regs) : Regs :=
  { r with cmd := w, done := false, err := false, errcode := 0#4, errinfo := 0#32, errrow := 0#32, errcol := 0#32,
           result := 0#32, outCount := 0#32 }

/-- Four bytes as a little-endian word (R17, R103). -/
def le32 (m : Memory) (a : Nat) : Word := m.read (a + 3) ++ m.read (a + 2) ++ m.read (a + 1) ++ m.read a

/-- Two bytes as a little-endian word, zero-extended (R17, R148). -/
def le16 (m : Memory) (a : Nat) : Word := 0#16 ++ m.read (a + 1) ++ m.read a

/-- The operands of the DECODE that a decode-family instruction is (R143 to R146): those of the pending command, with
the instruction's own field selected (log 8). `none` for the other commands. -/
def selected (i : Instr) (o : Regs) : Option Regs :=
  match i with
  | .decode => some o
  | .unpack0 bf => some (o.withMode 0#16 bf)
  | .unpack1 bf => some (o.withMode 1#16 bf)
  | .unpack4 bf => some (o.withMode 4#16 bf)
  | .unpack8 bf => some (o.withMode 8#16 bf)
  | .unpack16x555 => some (o.withMode 16#16 false)
  | .unpack16bf => some (o.withMode 16#16 true)
  | .unpack24 bf => some (o.withMode 24#16 bf)
  | .unpack32rgb => some (o.withMode 32#16 false)
  | .unpack32bf => some (o.withMode 32#16 true)
  | .rejectRle8 => some (o.withComp 1#32)
  | .rejectRle4 => some (o.withComp 2#32)
  | .rejectJpeg => some (o.withComp 4#32)
  | .rejectPng => some (o.withComp 5#32)
  | .rejectOther comp => some (o.withComp comp)
  | .orderRgba => some (o.withOrder 0#3)
  | .orderBgra => some (o.withOrder 1#3)
  | .orderArgb => some (o.withOrder 2#3)
  | .orderAbgr => some (o.withOrder 3#3)
  | .orderInvalid ord => some (o.withOrder ord)
  | .orientTopdown => some (o.withTopdown true)
  | .orientBottomup => some (o.withTopdown false)
  | .outBytes => some (o.withOutfmt false)
  | .outWords => some (o.withOutfmt true)
  | .nop | .palLoad | .maskLoad | .bfx | .palLookup | .illegal _ => none

/-- The operands pass every check of DECODE (R221 to R226, R228). -/
abbrev Admitted (o : Regs) : Prop :=
  (o.compression = 0#32 ∨ o.compression = 3#32) ∧ 0 ≤ o.widthInt ∧
  o.bpp ∈ [0#16, 1#16, 4#16, 8#16, 16#16, 24#16, 32#16] ∧
  (o.usesMasks = true → contiguous o.rmask = true ∧ contiguous o.gmask = true ∧ contiguous o.bmask = true) ∧
  o.order.toNat ≤ 3 ∧ o.need ≤ o.outLen.toNat ∧
  o.pixBase.toNat + o.rowBytes * o.rowCount ≤ o.inLen.toNat

/-- INMEM byte `a` lies in the range that the command of word `w` reads with operands `o` (R476): the pixel data of
DECODE, the mask block of MASK_LOAD, the palette region of PAL_LOAD, where the command's own checks let it read at all
(R104, log 15). -/
abbrev ReadsInmem (w : Word) (o : Regs) (a : Nat) : Prop :=
  (w = 5#32 ∧ Admitted o ∧ o.pixBase.toNat ≤ a ∧ a < o.pixBase.toNat + o.rowBytes * o.rowCount) ∨
  (w = 2#32 ∧ o.maskBase.toNat + 12 ≤ o.inLen.toNat ∧ o.maskBase.toNat ≤ a ∧ a < o.maskBase.toNat + 12) ∨
  (w = 1#32 ∧ o.palBase.toNat + o.palLen.toNat ≤ o.inLen.toNat ∧ o.palBase.toNat ≤ a ∧
    a < o.palBase.toNat + o.palLen.toNat)

/-- On this platform a DECODE with operands `o` writes physical bytes that it also reads (R478, log 30): both memories
stand on one physical memory, and the output range and the pixel data, neither of them empty, meet there. -/
abbrev Overlapping (o : Regs) : Prop :=
  Config.sharedMemory = true ∧ Admitted o ∧ 0 < o.need ∧ 0 < o.rowBytes * o.rowCount ∧
  Config.inSysBase + o.pixBase.toNat < Config.outSysBase + o.need ∧
  Config.outSysBase < Config.inSysBase + o.pixBase.toNat + o.rowBytes * o.rowCount

/-- The first failing check of DECODE, as code, ERRINFO and ERRCOL (R440, R411, R221 to R226, R228). -/
def firstError (o : Regs) : Option (Nat × Word × Word) :=
  if o.heightInt < 0 ∧ o.compression ≠ 0#32 ∧ o.compression ≠ 3#32 then some (2, 1#32, 0#32)
  else if o.widthInt < 0 then some (2, 2#32, 0#32)
  else if o.compression ≠ 0#32 ∧ o.compression ≠ 3#32 then some (4, o.compression, 0#32)
  else if ¬o.bpp ∈ [0#16, 1#16, 4#16, 8#16, 16#16, 24#16, 32#16] then some (3, o.bpp.setWidth 32, 0#32)
  else if o.usesMasks = true ∧ contiguous o.rmask = false then some (7, o.rmask, 0#32)
  else if o.usesMasks = true ∧ contiguous o.gmask = false then some (7, o.gmask, 1#32)
  else if o.usesMasks = true ∧ contiguous o.bmask = false then some (7, o.bmask, 2#32)
  else if 3 < o.order.toNat then some (8, o.order.setWidth 32, 0#32)
  else if o.outLen.toNat < o.need then some (10, BitVec.ofNat 32 (min o.need 0xFFFFFFFF), 0#32)
  else if o.inLen.toNat < o.pixBase.toNat + o.rowBytes * o.rowCount then
    some (9, BitVec.ofNat 32 (min (o.pixBase.toNat + o.rowBytes * o.rowCount) 0xFFFFFFFF), 0#32)
  else none

/-- A pixel's bytes in the order the channel order's name lists them (R379, R381 to R384). -/
def namedBytes (ord : BitVec 3) (p : Word) : List Byte :=
  if ord = 0#3 then [pixR p, pixG p, pixB p, pixA p]
  else if ord = 1#3 then [pixB p, pixG p, pixR p, pixA p]
  else if ord = 2#3 then [pixA p, pixR p, pixG p, pixB p]
  else [pixA p, pixB p, pixG p, pixR p]

/-- A pixel's bytes by rising OUTMEM address: in the named order for OUT.BYTES (R380), in the reverse of it for the
little-endian word of OUT.WORDS (R385). -/
def storedBytes (outfmt : Bool) (ord : BitVec 3) (p : Word) : List Byte :=
  if outfmt then (namedBytes ord p).reverse else namedBytes ord p

/-- The stored row that output row `r` comes from, by the table of R375. -/
def storedRowOf (o : Regs) (r : Nat) : Nat :=
  match o.storedTopDown, o.topdown with
  | false, false => r
  | false, true => o.rowCount - 1 - r
  | true, false => o.rowCount - 1 - r
  | true, true => r

/-- The four bytes of OUTMEM that show output row `r`, column `c` (R372). -/
def shownBytes (o : Regs) (m : Memory) (r c : Nat) : List Byte :=
  [m.read (4 * (r * o.imageWidth + c)), m.read (4 * (r * o.imageWidth + c) + 1),
    m.read (4 * (r * o.imageWidth + c) + 2), m.read (4 * (r * o.imageWidth + c) + 3)]

/-- `out` is a DECODE of operands `o` from state `s` that succeeded on the stored pixels `pix` (R227, R371): OUT_COUNT is
the number of bytes written, every kept pixel stands where R372 puts it, every other byte of OUTMEM is as before, and
nothing else changed but what a completion changes. -/
def DecodesTo (out : Host.Outcome State Fault Refusal) (o : Regs) (s : State) (pix : Nat → Nat → Word) : Prop :=
  ∃ m : Memory,
    out = .next { completedOk s with regs := { (completedOk s).regs with outCount := BitVec.ofNat 32 o.need }, outmem := m } ∧
    (∀ r < o.rowCount, ∀ c < o.imageWidth,
      shownBytes o m r c = storedBytes o.outfmt o.order (pix (storedRowOf o r) c)) ∧
    ∀ a, o.need ≤ a → m.read a = s.outmem.read a

/-- The first byte of stored row `sr` (R321). -/
def rowByte (o : Regs) (sr : Nat) : Nat := o.pixBase.toNat + sr * o.rowBytes

/-- The palette index of an indexed pixel (R326, R327, R328), by bit depth. -/
def storedIndex (o : Regs) (m : Memory) (sr c : Nat) : Nat :=
  if o.bpp = 1#16 then ((m.read (rowByte o sr + c / 8)).getLsbD (7 - c % 8)).toNat
  else if o.bpp = 4#16 then
    (if c % 2 = 0 then (m.read (rowByte o sr + c / 2)).extractLsb' 4 4 else (m.read (rowByte o sr + c / 2)).extractLsb' 0 4).toNat
  else (m.read (rowByte o sr + c)).toNat

/-- The pixel of a palette entry (R256). -/
def entryPixel (e : PalEntry) : Word := argb 0xFF#8 e.r e.g e.b

end Sys2Proof.Spec

open Sys2Proof Sys2Proof.Machine Sys2Proof.Spec

/-! ## Encoding -/

/-- Decoding an encoded well-formed instruction gives it back, for every instruction and every operand. -/
def Obligations.EncodeThenDecodeGivesTheInstruction : Prop :=
  ∀ i : Instr, i.wf = true → Sys2Proof.decode (encode i) = .ok i

/-- A word that decodes is the word its instruction encodes to, and the instruction is well-formed. -/
def Obligations.DecodeThenEncodeGivesTheWord : Prop :=
  ∀ (e : Encoded) (i : Instr), Sys2Proof.decode e = .ok i → encode i = e ∧ i.wf = true

/-- Every word that matches a row of the opcode table decodes to an instruction of that row's mnemonic. -/
def Obligations.EveryOpcodeRowDecodesToItsMnemonic : Prop :=
  ∀ row ∈ opcodeRows, ∀ w : Word, w &&& row.mask = row.pattern → w &&& ~~~ row.format.field = 0#32 →
    ∃ i, Sys2Proof.decode ⟨row.format, w⟩ = .ok i ∧ i.mnemonic = row.mnemonic

/-- A few words written out from the tables of R141 and R143 to R146. -/
def Obligations.WrittenOutWordsDecode : Prop :=
  Sys2Proof.decode ⟨.cmd, 0x00000005#32⟩ = .ok .decode ∧ Sys2Proof.decode ⟨.cmd, 0x00000002#32⟩ = .ok .maskLoad ∧
  Sys2Proof.decode ⟨.mode, 0x00000021#32⟩ = .ok .unpack16bf ∧ Sys2Proof.decode ⟨.mode, 0x00000030#32⟩ = .ok (.unpack24 false) ∧
  Sys2Proof.decode ⟨.comp, 0x00000005#32⟩ = .ok .rejectPng ∧ Sys2Proof.decode ⟨.order, 0x00000003#32⟩ = .ok .orderAbgr ∧
  Sys2Proof.decode ⟨.topdown, 0x00000008#32⟩ = .ok .orientTopdown ∧ Sys2Proof.decode ⟨.outfmt, 0x00000010#32⟩ = .ok .outWords ∧
  Sys2Proof.decode ⟨.mode, 0x00000004#32⟩ = .error (.unsupportedBitDepth 2#16)

/-- R206: a command word from 6 up is latched, reads back, and completes with IllegalCommand and the word as detail;
nothing else changes. -/
def Obligations.IllegalWordsRaiseIllegalCommand : Prop :=
  ∀ (w : Word) (d : Nat) (s : State), 6 ≤ w.toNat →
    decodeCmd w = .illegal w ∧
    exec (.illegal w) s = .next (completedErr 12 w 0#32 0#32 s) ∧
    (s.accept w d).readReg .cmd = w

/-! ## Mode selection -/

/-- R143: where the compression is one DECODE decodes, DECODE is the instruction its MODE key decodes to. That a mode row
is the DECODE in that mode is the model's reading (log 8). -/
def Obligations.ModeKeySelectsTheUnpackPath : Prop :=
  ∀ (s : State) (i : Instr), (s.operands.compression = 0#32 ∨ s.operands.compression = 3#32) →
    Sys2Proof.decodeMode s.operands.modeKey = .ok i → exec .decode s = exec i s

/-- R144 to R146: DECODE is the rejection its COMP field decodes to, where it decodes to one, and always the instruction
that each field of FMT decodes to (log 8). -/
def Obligations.CompressionAndFormatFieldsSelectTheirModes : Prop :=
  ∀ s : State,
    (∀ i, Sys2Proof.decodeComp s.operands.compression = .ok i → exec .decode s = exec i s) ∧
    exec .decode s = exec (Sys2Proof.decodeOrder s.operands.order) s ∧
    exec .decode s = exec (Sys2Proof.decodeTopdown s.operands.topdown) s ∧
    exec .decode s = exec (Sys2Proof.decodeOutfmt s.operands.outfmt) s

/-! ## The step -/

/-- A step with a pending command whose latency is over is exec of the instruction the latched word decodes to, but
where the host asserts `rst` in that step: the reset wins over the completion (R441, log 31), as it does before it. With
latency left, a unit of it passes and the host has its turn; with no command pending, the host has its turn. -/
def Obligations.StepRunsTheLatchedCommand : Prop :=
  ∀ s : State,
    (∀ p i, s.pending = some p → p.delay = 0 → (∀ rest, s.host ≠ .rst true :: rest) →
      Sys2Proof.decode ⟨.cmd, p.word⟩ = .ok i → step s = exec i s) ∧
    (∀ p rest, s.pending = some p → s.host = .rst true :: rest →
      step s = .next ({ s with host := rest }.driveReset true)) ∧
    (∀ p n, s.pending = some p → p.delay = n + 1 →
      step s = { s with pending := some { p with delay := n } }.hostTurn) ∧
    (s.pending = none → step s = s.hostTurn)

/-- R200: the host's write of word `v` to CMD while idle latches it, sets BUSY, clears DONE, ERR, the error registers,
RESULT and OUT_COUNT, and makes it pending with a snapshot of all registers, but for a DECODE whose output would lie over
what it reads, which is refused (R478, log 30); while busy the write is ignored. -/
def Obligations.CommandWriteIsAcceptedWhileIdle : Prop :=
  ∀ (s : State) (v : Word) (rest : List HostOp), s.host = .wr 0x004#32 4 v :: rest →
    (s.pending = none → s.rst = false →
      ∃ d, step s =
        if v = 5#32 ∧ Overlapping s.regs then .refused .memoryOverlap
        else .next { s with host := rest, draws := s.draws + 1, regs := acceptedRegs v s.regs,
                            pending := some ⟨v, acceptedRegs v s.regs, d⟩,
                            cursor := if v = 5#32 then some ⟨0, 0⟩ else none }) ∧
    (∀ p, s.pending = some p → p.delay ≠ 0 →
      step s = .next { s with host := rest, pending := some { p with delay := p.delay - 1 } })

/-- R475: while a command is pending, an MMIO write to any register changes nothing. -/
def Obligations.WritesWhileBusyAreIgnored : Prop :=
  ∀ (s : State) (p : Pending) (off v : Word) (rest : List HostOp),
    s.pending = some p → p.delay ≠ 0 → off.toNat % 4 = 0 → s.host = .wr off 4 v :: rest →
    step s = .next { s with host := rest, pending := some { p with delay := p.delay - 1 } }

/-- Every step keeps the invariant, from every state that meets it. -/
def Obligations.StepKeepsTheInvariant : Prop :=
  ∀ s t : State, s.Inv → step s = .next t → t.Inv

/-- The reset state meets the invariant. -/
def Obligations.ResetMeetsTheInvariant : Prop := State.reset.Inv

/-- A step goes on exactly from a safe state: the engine's turn never stops, and the host's stops only at an access
outside the block's interface. -/
def Obligations.StepGoesOnExactlyFromSafeStates : Prop :=
  ∀ s : State, (∃ t, step s = .next t) ↔ s.Safe

/-- R202, R481: a pending command completes when its latency is over. Over `delay + 1` steps in which the host does
nothing, the machine is where the command's instruction leaves it. -/
def Obligations.PendingCommandCompletesAfterItsLatency : Prop :=
  ∀ (s : State) (p : Pending), s.pending = some p → s.host = [] →
    Sys2Proof.core.run (p.delay + 1) s =
      exec (decodeCmd p.word) { s with pending := some { p with delay := 0 } }

/-- R201, R410, R412: every instruction, from every state, ends in a completion: idle again, DONE set, ERR set exactly
with a code, the code one that the block produces, and no detail without an error. -/
def Obligations.EveryInstructionEndsInACompletion : Prop :=
  ∀ (i : Instr) (s : State), ∃ t, exec i s = .next t ∧ t.busy = false ∧ t.cursor = none ∧ t.regs.done = true ∧
    (t.regs.err = true ↔ t.regs.errcode ≠ 0#4) ∧
    (t.regs.errcode = 0#4 ∨ (2 ≤ t.regs.errcode.toNat ∧ t.regs.errcode.toNat ≤ 12)) ∧
    (t.regs.err = false → t.regs.errinfo = 0#32 ∧ t.regs.errrow = 0#32 ∧ t.regs.errcol = 0#32)

/-- R430: `irq` is STATUS.DONE and IRQEN.IE; every completion raises it where IE is set; a W1C write of STATUS, an
acceptance, clearing IE, and reset clear it. -/
def Obligations.InterruptFollowsDoneAndEnable : Prop :=
  ∀ s : State,
    s.irq = ((s.readReg .status).getLsbD 1 && (s.readReg .irqen).getLsbD 0) ∧
    (∀ i t, exec i s = .next t → t.irq = s.regs.ie) ∧
    (s.driveReset true).irq = false ∧
    (s.pending = none → s.rst = false →
      (∀ v, v.getLsbD 1 = true → (s.mmioWrite 0x008#32 v).irq = false) ∧
      (∀ v, v.getLsbD 0 = false → (s.mmioWrite 0x01C#32 v).irq = false) ∧
      ∀ w, (s.mmioWrite 0x004#32 w).irq = false)

/-- R35: what a write of STATUS does, and the values STATUS can read in a state that meets the invariant. -/
def Obligations.StatusWritesAndReadings : Prop :=
  (∀ (s : State) (v : Word), s.pending = none → s.rst = false →
    s.mmioWrite 0x008#32 v =
      if v.getLsbD 1 = true then { s with regs := { s.regs with done := false } } else s) ∧
  ∀ s : State, s.Inv → s.readReg .status ∈ [0b000#32, 0b001#32, 0b010#32, 0b110#32, 0b100#32]

/-! ## Whole-machine rules -/

/-- R422: at a completion with an error only STATUS, the error registers and, for PAL_LOAD, PAL_COUNT differ. -/
def Obligations.ErrorsArePreciseInTheRegisters : Prop :=
  ∀ (i : Instr) (s t : State), exec i s = .next t → t.regs.err = true →
    ∃ code info row col,
      t.regs = { s.regs with done := true, err := true, errcode := code, errinfo := info, errrow := row, errcol := col,
                             palCount := if i = .palLoad then 0#9 else s.regs.palCount }

/-- R421: at a completion with an error RESULT, OUT_COUNT and the masks are unchanged, the palette too but for PAL_LOAD,
and OUTMEM too but for an IndexOutOfRange of a DECODE, which leaves every byte from `need` up. -/
def Obligations.ErrorsLeaveMemoryAndResultsAlone : Prop :=
  ∀ (i : Instr) (s t : State), exec i s = .next t → t.regs.err = true →
    t.inmem = s.inmem ∧ t.regs.result = s.regs.result ∧ t.regs.outCount = s.regs.outCount ∧
    t.regs.rmask = s.regs.rmask ∧ t.regs.gmask = s.regs.gmask ∧ t.regs.bmask = s.regs.bmask ∧
    (i ≠ .palLoad → t.pal = s.pal) ∧
    (t.regs.errcode ≠ 6#4 ∨ i = .palLookup → t.outmem = s.outmem) ∧
    ∀ o a, selected i s.operands = some o → o.need ≤ a → t.outmem.read a = s.outmem.read a

/-- R101: no instruction writes INMEM, and none depends on what OUTMEM holds: with another OUTMEM `m` the same instruction
leaves the same state but for OUTMEM, of which either no byte is written, or exactly the bytes 0 .. need-1 of the DECODE
it is, each with the same value whatever OUTMEM held. After an IndexOutOfRange that equality below `need`, and after a
PAL_LOAD the equality of the entries left unspecified, is the model's choice and no rule of the spec (R421, R254): free
values depend on the counter `draws` alone (logs 3, 19, 26). -/
def Obligations.BlockNeitherWritesInmemNorReadsOutmem : Prop :=
  ∀ (i : Instr) (s t : State), exec i s = .next t →
    t.inmem = s.inmem ∧ ∀ m : Memory, ∃ m' : Memory, exec i { s with outmem := m } = .next { t with outmem := m' } ∧
      ((∀ a, m'.read a = m.read a ∧ t.outmem.read a = s.outmem.read a) ∨
        ∃ o, selected i s.operands = some o ∧
          (∀ a < o.need, m'.read a = t.outmem.read a) ∧
          ∀ a, o.need ≤ a → m'.read a = m.read a ∧ t.outmem.read a = s.outmem.read a)

/-- R104: no instruction depends on an INMEM byte at or above IN_LEN: with other bytes there it leaves the same state but
for INMEM. That the palette entries and OUTMEM bytes which the spec leaves unspecified (R254, R421) are the same in both
runs is the model's choice and no rule of the spec: free values depend on the counter `draws` alone (logs 3, 19, 26). -/
def Obligations.CommandsReadOnlyBelowInLen : Prop :=
  ∀ (i : Instr) (s t : State) (m : Memory), (∀ a < s.operands.inLen.toNat, m.read a = s.inmem.read a) →
    exec i s = .next t → exec i { s with inmem := m } = .next { t with inmem := m }

/-- R104, R227: no instruction writes an OUTMEM byte at or above OUT_LEN. -/
def Obligations.CommandsWriteOnlyBelowOutLen : Prop :=
  ∀ (i : Instr) (s t : State) (a : Nat), s.operands.outLen.toNat ≤ a → exec i s = .next t →
    t.outmem.read a = s.outmem.read a

/-- `10_state.md` section 5 and R40: no instruction writes a configuration register but MASK_LOAD the masks; only
PAL_LOAD writes the palette RAM and PAL_COUNT; only BFX and PAL_LOOKUP write RESULT; only a DECODE writes OUT_COUNT and
OUTMEM; none touches CMD, IRQEN, `rst` or the host. -/
def Obligations.EachInstructionWritesOnlyItsOwnRegisters : Prop :=
  ∀ (i : Instr) (s t : State), exec i s = .next t →
    t.regs.cmd = s.regs.cmd ∧ t.regs.ie = s.regs.ie ∧ t.regs.width = s.regs.width ∧ t.regs.height = s.regs.height ∧
    t.regs.bpp = s.regs.bpp ∧ t.regs.compression = s.regs.compression ∧ t.regs.fmt = s.regs.fmt ∧
    t.regs.pixBase = s.regs.pixBase ∧ t.regs.inLen = s.regs.inLen ∧ t.regs.outLen = s.regs.outLen ∧
    t.regs.palBase = s.regs.palBase ∧ t.regs.palLen = s.regs.palLen ∧ t.regs.maskBase = s.regs.maskBase ∧
    t.regs.arg = s.regs.arg ∧ t.rst = s.rst ∧ t.host = s.host ∧ t.busData = s.busData ∧ t.outData = s.outData ∧
    (i ≠ .maskLoad → t.regs.rmask = s.regs.rmask ∧ t.regs.gmask = s.regs.gmask ∧ t.regs.bmask = s.regs.bmask) ∧
    (i ≠ .palLoad → t.pal = s.pal ∧ t.regs.palCount = s.regs.palCount) ∧
    (i ≠ .bfx → i ≠ .palLookup → t.regs.result = s.regs.result) ∧
    (selected i s.operands = none → t.regs.outCount = s.regs.outCount ∧ t.outmem = s.outmem)

/-! ## Reset and the register map -/

/-- R460: what every register reads after reset, in the reset state and after the host asserts `rst`; nothing is
pending, `irq` is deasserted, INMEM is unchanged, and OUTMEM too where no DECODE was pending (where one was, see
R462). -/
def Obligations.ResetLeavesTheListedValues : Prop :=
  (∀ r, State.reset.readReg r = if r = .id then 0x56440001#32 else 0#32) ∧
  State.reset.pending = none ∧ State.reset.cursor = none ∧ State.reset.irq = false ∧
  ∀ s : State,
    (∀ r, (s.driveReset true).readReg r = if r = .id then 0x56440001#32 else 0#32) ∧
    (s.driveReset true).pending = none ∧ (s.driveReset true).cursor = none ∧ (s.driveReset true).irq = false ∧
    (s.driveReset true).inmem = s.inmem ∧
    ((∀ p, s.pending = some p → p.word ≠ 5#32) → (s.driveReset true).outmem = s.outmem)

/-- R462, R441: a reset while BUSY abandons the pending command, also where its latency is over and the reset coincides
with its completion: no completion and no interrupt, every register at its reset value. A DECODE may have written OUTMEM
below OUT_LEN only. -/
def Obligations.ResetAbandonsThePendingCommand : Prop :=
  ∀ (s : State) (p : Pending) (rest : List HostOp), s.pending = some p → s.host = .rst true :: rest →
    ∃ t, step s = .next t ∧ t.pending = none ∧ t.irq = false ∧ t.regs = Regs.reset ∧ t.inmem = s.inmem ∧
      ∀ a, p.word ≠ 5#32 ∨ s.regs.outLen.toNat ≤ a → t.outmem.read a = s.outmem.read a

/-- R463: after reset the block is idle with the interrupt masked, and a DECODE issued then completes with
STATUS = 0b010 and OUT_COUNT = 0. -/
def Obligations.DecodeRightAfterResetSucceeds : Prop :=
  State.reset.busy = false ∧ State.reset.regs.ie = false ∧
  ∀ d, ∃ t, exec .decode (State.reset.accept 5#32 d) = .next t ∧ t.readReg .status = 0b010#32 ∧
    t.readReg .outCount = 0#32

/-- R64: reserved and unmapped offsets read 0 and ignore writes, read-only registers ignore writes, and reserved bits of
defined registers read 0. -/
def Obligations.ReservedSpaceReadsZeroAndIgnoresWrites : Prop :=
  ∀ s : State, s.rst = false →
    (∀ off : Word, off.toNat % 4 = 0 → (0x068 ≤ off.toNat ∧ off.toNat ≤ 0x3FC ∨ 0x800 ≤ off.toNat) →
      s.mmioRead off = { s with busData := 0#32 } ∧ ∀ v, s.mmioWrite off v = s) ∧
    (∀ r ∈ [Reg.id, .errcode, .errinfo, .errrow, .errcol, .palCount, .result, .outCount], ∀ v,
      s.mmioWrite r.offset v = s) ∧
    (s.readReg .status).toNat < 2 ^ 3 ∧ (s.readReg .errcode).toNat < 2 ^ 4 ∧ (s.readReg .irqen).toNat < 2 ^ 1 ∧
    (s.readReg .bpp).toNat < 2 ^ 16 ∧ (s.readReg .fmt).toNat < 2 ^ 5 ∧ (s.readReg .palCount).toNat < 2 ^ 9

/-- R32, R50 to R61: a write of a read-write register while idle reads back cut to the register's width, and leaves
every other register, the palette and the memories as they were. -/
def Obligations.WritableRegistersReadBack : Prop :=
  ∀ (s : State) (v : Word), s.pending = none → s.rst = false →
    ∀ rk ∈ [(Reg.irqen, 1), (.width, 32), (.height, 32), (.bpp, 16), (.compression, 32), (.rmask, 32), (.gmask, 32),
        (.bmask, 32), (.fmt, 5), (.pixBase, 32), (.inLen, 32), (.outLen, 32), (.palBase, 32), (.palLen, 32),
        (.maskBase, 32), (.arg, 32)],
      ((s.mmioWrite rk.1.offset v).readReg rk.1).toNat = v.toNat % 2 ^ rk.2 ∧
      (∀ r, r ≠ rk.1 → (s.mmioWrite rk.1.offset v).readReg r = s.readReg r) ∧
      ∃ regs, s.mmioWrite rk.1.offset v = { s with regs := regs }

/-- R42: PALWIN of a loaded entry reads RSV, R, G, B from bit 31 down, and PALWIN ignores writes. What an entry at or
above PAL_COUNT reads is left free. -/
def Obligations.PalwinReadsLoadedEntries : Prop :=
  ∀ (s : State) (i : Nat) (e : PalEntry), s.rst = false → i < 256 →
    (i < s.regs.palCount.toNat → s.pal[i]? = some e →
      s.mmioRead (BitVec.ofNat 32 (0x400 + 4 * i)) = { s with busData := e.rsv ++ e.r ++ e.g ++ e.b }) ∧
    ∀ v, s.mmioWrite (BitVec.ofNat 32 (0x400 + 4 * i)) v = s

/-- R110, R31, R32: an MMIO read changes nothing but the data it returns (and the draw of a free value); at the offset of
a register it returns that register, ID being the constant 0x5644_0001; an access of another width, or misaligned, is
refused. -/
def Obligations.MmioReadsChangeNothingAndOddAccessesAreRefused : Prop :=
  ∀ s : State,
    (∀ off, ∃ d n, s.mmioRead off = { s with busData := d, draws := n }) ∧
    (s.rst = false → ∀ r : Reg, s.mmioRead r.offset = { s with busData := s.readReg r }) ∧
    s.readReg .id = 0x56440001#32 ∧
    ∀ off size v, (size ≠ 4 ∨ off.toNat % 4 ≠ 0) →
      s.hostOp (.wr off size v) = .refused .mmioAccess ∧ s.hostOp (.rd off size) = .refused .mmioAccess

/-! ## The sequencer, the palette and the extractor -/

/-- R205: NOP completes without error and its completion changes nothing else; from its acceptance to its completion it
clears RESULT, OUT_COUNT and the error registers, and leaves every other register, the palette and OUTMEM. -/
def Obligations.NopOnlyCompletes : Prop :=
  ∀ s : State,
    exec .nop s = .next (completedOk s) ∧
    ∀ d, exec .nop (s.accept 0#32 d) =
      .next { s with regs := { acceptedRegs 0#32 s.regs with done := true }, pending := none, cursor := none }

/-- R210: MASK_LOAD reads three little-endian words at MASK_BASE, unchecked; where the 12 bytes do not lie below IN_LEN,
computed without wrap-around, it raises TruncatedInput with the end of the range, saturated, and the masks stay. -/
def Obligations.MaskLoadReadsThreeWords : Prop :=
  ∀ s : State, let a := s.operands.maskBase.toNat
    (a + 12 ≤ s.operands.inLen.toNat →
      exec .maskLoad s = .next { completedOk s with
        regs := { (completedOk s).regs with rmask := le32 s.inmem a, gmask := le32 s.inmem (a + 4),
                                            bmask := le32 s.inmem (a + 8) } }) ∧
    (s.operands.inLen.toNat < a + 12 →
      exec .maskLoad s = .next (completedErr 9 (BitVec.ofNat 32 (min (a + 12) 0xFFFFFFFF)) 0#32 0#32 s))

/-- R251, R255: PAL_LOAD of a region below IN_LEN, of at most 256 entries with zero reserved bytes, loads each entry's
blue, green and red and a zero reserved byte, ignores the trailing bytes, and sets PAL_COUNT. The entries above are
left free. -/
def Obligations.PalLoadLoadsTheRegion : Prop :=
  ∀ s : State, let o := s.operands; let a := o.palBase.toNat; let n := o.palLen.toNat / 4
    a + o.palLen.toNat ≤ o.inLen.toNat → (∀ i < n, s.inmem.read (a + 4 * i + 3) = 0#8) → n ≤ 256 →
    ∃ pal draws,
      exec .palLoad s = .next { completedOk s with
        regs := { (completedOk s).regs with palCount := BitVec.ofNat 9 n }, pal := pal, draws := draws } ∧
      pal.length = 256 ∧
      ∀ i < n, pal[i]? =
        some ⟨s.inmem.read (a + 4 * i), s.inmem.read (a + 4 * i + 1), s.inmem.read (a + 4 * i + 2), 0#8⟩

/-- R251 to R254: PAL_LOAD's errors in their order, each of which empties the palette. -/
def Obligations.PalLoadReportsItsFirstError : Prop :=
  ∀ s : State, let o := s.operands; let a := o.palBase.toNat; let n := o.palLen.toNat / 4
    let emptied := fun code info col => ∃ pal draws,
      exec .palLoad s = .next { completedErr code info 0#32 col s with
        regs := { (completedErr code info 0#32 col s).regs with palCount := 0#9 }, pal := pal, draws := draws }
    (o.inLen.toNat < a + o.palLen.toNat →
      emptied 9 (BitVec.ofNat 32 (min (a + o.palLen.toNat) 0xFFFFFFFF)) 0#32) ∧
    (a + o.palLen.toNat ≤ o.inLen.toNat → ∀ k < n, s.inmem.read (a + 4 * k + 3) ≠ 0#8 →
      (∀ i < k, s.inmem.read (a + 4 * i + 3) = 0#8) →
      emptied 5 (BitVec.ofNat 32 k) ((s.inmem.read (a + 4 * k + 3)).setWidth 32)) ∧
    (a + o.palLen.toNat ≤ o.inLen.toNat → (∀ i < n, s.inmem.read (a + 4 * i + 3) = 0#8) → 256 < n →
      emptied 11 (BitVec.ofNat 32 n) 0#32)

/-- R260, R256, R261: PAL_LOOKUP of an index below PAL_COUNT gives the entry's red, green and blue with alpha 0xFF; any
other index, all 32 bits of it, raises IndexOutOfRange with the index. -/
def Obligations.PalLookupGivesTheEntryPixel : Prop :=
  ∀ s : State, let o := s.operands
    (∀ e, o.arg.toNat < o.palCount.toNat → s.pal[o.arg.toNat]? = some e →
      exec .palLookup s = .next { completedOk s with regs := { (completedOk s).regs with result := entryPixel e } }) ∧
    (o.palCount.toNat ≤ o.arg.toNat → exec .palLookup s = .next (completedErr 6 o.arg 0#32 0#32 s))

/-- R295, R281, R292: BFX checks red, green, blue in that order and raises InvalidColorMask with the first mask that is
no single run; else RESULT is the pixel of the three channels of ARG, alpha 0xFF. -/
def Obligations.BfxChecksAndExtracts : Prop :=
  ∀ s : State, let o := s.operands
    (contiguous o.rmask = false → exec .bfx s = .next (completedErr 7 o.rmask 0#32 0#32 s)) ∧
    (contiguous o.rmask = true → contiguous o.gmask = false →
      exec .bfx s = .next (completedErr 7 o.gmask 0#32 1#32 s)) ∧
    (contiguous o.rmask = true → contiguous o.gmask = true → contiguous o.bmask = false →
      exec .bfx s = .next (completedErr 7 o.bmask 0#32 2#32 s)) ∧
    (contiguous o.rmask = true → contiguous o.gmask = true → contiguous o.bmask = true →
      exec .bfx s = .next { completedOk s with regs := { (completedOk s).regs with
        result := 0xFF#8 ++ chan o.arg o.rmask ++ chan o.arg o.gmask ++ chan o.arg o.bmask } })

/-- R280, R281, R282: a mask is contiguous exactly when it is zero or one run of ones, and then its offset and width are
the run's. -/
def Obligations.ContiguousMasksAreSingleRuns : Prop :=
  (∀ m : Word, contiguous m = true ↔ m = 0#32 ∨ ∃ off w, 1 ≤ w ∧ off + w ≤ 32 ∧ m.toNat = (2 ^ w - 1) * 2 ^ off) ∧
  (∀ (m : Word) (off w : Nat), 1 ≤ w → off + w ≤ 32 → m.toNat = (2 ^ w - 1) * 2 ^ off → maskOff m = off ∧ maskWidth m = w) ∧
  maskWidth 0#32 = 0

/-- R283, R289: the channel of a pixel under a run mask is the rescaled field that the run cuts out, and a zero mask
gives channel 0 (R282). -/
def Obligations.ChannelIsTheRescaledField : Prop :=
  ∀ p m : Word,
    (∀ off w, 1 ≤ w → off + w ≤ 32 → m.toNat = (2 ^ w - 1) * 2 ^ off →
      (chan p m).toNat = rescale (p.toNat / 2 ^ off % 2 ^ w) w) ∧
    (m = 0#32 → chan p m = 0#8)

/-- R284, R285, R286: the rescale is the integer nearest to 255 f / (2^w - 1), strictly nearer than any other (no tie),
and at most 255, at every width 1 to 32. -/
def Obligations.RescaleIsTheNearestInteger : Prop :=
  ∀ w f : Nat, 1 ≤ w → w ≤ 32 → f ≤ 2 ^ w - 1 →
    rescale f w ≤ 255 ∧
    2 * (2 ^ w - 1) * rescale f w < 2 * (255 * f) + (2 ^ w - 1) ∧
    2 * (255 * f) < 2 * (2 ^ w - 1) * rescale f w + (2 ^ w - 1)

/-- R287, R288: the rescale is exact at the extremes of every width, and the identity at width 8. -/
def Obligations.RescaleExtremesAndWidthEight : Prop :=
  (∀ w, 1 ≤ w → w ≤ 32 → rescale 0 w = 0 ∧ rescale (2 ^ w - 1) w = 255) ∧ ∀ f, f ≤ 255 → rescale f 8 = f

/-- R290, R291: the 32 bpp default masks give the low 24 bits with alpha forced, and the 16 bpp default masks do not read
bit 15 or above. -/
def Obligations.DefaultMasksReadTheirBits : Prop :=
  ∀ p : Word,
    bfx p 0x00FF0000#32 0x0000FF00#32 0x000000FF#32 = 0xFF000000#32 ||| (p &&& 0x00FFFFFF#32) ∧
    bfx p 0x7C00#32 0x03E0#32 0x001F#32 = bfx (p &&& 0x7FFF#32) 0x7C00#32 0x03E0#32 0x001F#32

/-! ## DECODE -/

/-- R440, R221 to R226, R228: every decode-family instruction reports the first failing check in the order of DECODE's
pseudocode, with the detail of R411, and changes nothing else; no check fails exactly when the operands are admitted. -/
def Obligations.DecodeReportsTheFirstFailingCheck : Prop :=
  ∀ (i : Instr) (s : State) (o : Regs), selected i s.operands = some o →
    (∀ code info col, firstError o = some (code, info, col) →
      exec i s = .next (completedErr code info 0#32 col s)) ∧
    (firstError o = none ↔ Admitted o)

/-- R340, R341, R222, R221: a rejected compression value completes with UnsupportedCompression and the value, or with
UnsupportedFormat where the height or else the width is negative. -/
def Obligations.RejectedCompressionsRaise : Prop :=
  ∀ (s : State) (i : Instr) (comp : Word), encode i = ⟨.comp, comp⟩ → i.wf = true →
    let o := s.operands
    (0 ≤ o.heightInt → 0 ≤ o.widthInt → exec i s = .next (completedErr 4 comp 0#32 0#32 s)) ∧
    (o.heightInt < 0 → exec i s = .next (completedErr 2 1#32 0#32 0#32 s)) ∧
    (0 ≤ o.heightInt → o.widthInt < 0 → exec i s = .next (completedErr 2 2#32 0#32 0#32 s))

/-- R224: an order of 4 to 7 completes with InvalidChannelOrder and the order, also for 0 bpp, where the four checks
before it pass. -/
def Obligations.InvalidOrdersRaise : Prop :=
  ∀ (s : State) (ord : BitVec 3), let o := s.operands
    4 ≤ ord.toNat → (o.compression = 0#32 ∨ o.compression = 3#32) → 0 ≤ o.widthInt →
    o.bpp ∈ [0#16, 1#16, 4#16, 8#16, 16#16, 24#16, 32#16] →
    (o.usesMasks = true → contiguous o.rmask = true ∧ contiguous o.gmask = true ∧ contiguous o.bmask = true) →
    exec (.orderInvalid ord) s = .next (completedErr 8 (ord.setWidth 32) 0#32 0#32 s)

/-- R227, R371 to R373: where no check fails and every pixel of every stored row, padding included, unpacks, every
decode-family instruction writes exactly the kept pixels, in the channel order, row order and output format of its
operands. -/
def Obligations.DecodeWritesTheKeptPixels : Prop :=
  ∀ (i : Instr) (s : State) (o : Regs) (pix : Nat → Nat → Word), selected i s.operands = some o → Admitted o →
    o.bpp ≠ 0#16 →
    (∀ sr < o.rowCount, ∀ c < o.paddedWidth, unpackPixel o s.pal s.inmem sr c = .ok (pix sr c)) →
    DecodesTo (exec i s) o s pix

/-- R325: at 0 bpp, once the checks pass, every decode-family instruction writes nothing and succeeds with
OUT_COUNT = 0. -/
def Obligations.ZeroBitDepthWritesNothing : Prop :=
  (∀ (i : Instr) (s : State) (o : Regs), selected i s.operands = some o → Admitted o → o.bpp = 0#16 →
    exec i s = .next { completedOk s with regs := { (completedOk s).regs with outCount := 0#32 } }) ∧
  ∀ (s : State) (bf : Bool), Admitted (s.operands.withMode 0#16 bf) →
    exec (.unpack0 bf) s = .next { completedOk s with regs := { (completedOk s).regs with outCount := 0#32 } }

/-- R326, R327, R328, R322: the indexed paths show the palette's pixel of each stored index, where every index of every
stored row, padding included, is below PAL_COUNT. -/
def Obligations.IndexedPathsShowPalettePixels : Prop :=
  ∀ (s : State) (bf : Bool), s.operands.palCount.toNat ≤ s.pal.length →
    ∀ ib ∈ [(Instr.unpack1 bf, 1#16), (.unpack4 bf, 4#16), (.unpack8 bf, 8#16)],
      let o := s.operands.withMode ib.2 bf
      Admitted o →
      (∀ sr < o.rowCount, ∀ c < o.paddedWidth, storedIndex o s.inmem sr c < o.palCount.toNat) →
      DecodesTo (exec ib.1 s) o s
        fun sr c => entryPixel (s.pal.getD (storedIndex o s.inmem sr c) ⟨0#8, 0#8, 0#8, 0#8⟩)

/-- R329, R330: the 16 bpp paths show the extractor's pixel of each little-endian 16-bit word, with the fixed 5-5-5 masks
or with the host's. -/
def Obligations.SixteenBitPathsShowExtractedPixels : Prop :=
  ∀ s : State,
    (let o := s.operands.withMode 16#16 false
     Admitted o → DecodesTo (exec .unpack16x555 s) o s
       fun sr c => bfx (le16 s.inmem (rowByte o sr + 2 * c)) 0x7C00#32 0x03E0#32 0x001F#32) ∧
    (let o := s.operands.withMode 16#16 true
     Admitted o → DecodesTo (exec .unpack16bf s) o s
       fun sr c => bfx (le16 s.inmem (rowByte o sr + 2 * c)) o.rmask o.gmask o.bmask)

/-- R331, R324: the 24 bpp path shows blue, green, red triples with alpha 0xFF, each stored row from its own first
byte. -/
def Obligations.TwentyFourBitPathShowsTriples : Prop :=
  ∀ (s : State) (bf : Bool), let o := s.operands.withMode 24#16 bf
    Admitted o → DecodesTo (exec (.unpack24 bf) s) o s
      fun sr c => 0xFF#8 ++ s.inmem.read (rowByte o sr + 3 * c + 2) ++ s.inmem.read (rowByte o sr + 3 * c + 1)
        ++ s.inmem.read (rowByte o sr + 3 * c)

/-- R332, R333: the 32 bpp paths show the low 24 bits of each little-endian word with alpha forced, or the extractor's
pixel with the host's masks. -/
def Obligations.ThirtyTwoBitPathsShowTheirPixels : Prop :=
  ∀ s : State,
    (let o := s.operands.withMode 32#16 false
     Admitted o → DecodesTo (exec .unpack32rgb s) o s
       fun sr c => 0xFF000000#32 ||| (le32 s.inmem (rowByte o sr + 4 * c) &&& 0x00FFFFFF#32)) ∧
    (let o := s.operands.withMode 32#16 true
     Admitted o → DecodesTo (exec .unpack32bf s) o s
       fun sr c => bfx (le32 s.inmem (rowByte o sr + 4 * c)) o.rmask o.gmask o.bmask)

/-- R323, R322, R421: the first out-of-range index in storage order, padding included, ends an indexed DECODE with
IndexOutOfRange, its index, stored row and column; OUTMEM from `need` up is unchanged. -/
def Obligations.FirstOutOfRangeIndexIsReported : Prop :=
  ∀ (i : Instr) (s : State) (o : Regs) (sr c : Nat), selected i s.operands = some o → Admitted o →
    o.bpp ∈ [1#16, 4#16, 8#16] → sr < o.rowCount → c < o.paddedWidth →
    o.palCount.toNat ≤ storedIndex o s.inmem sr c →
    (∀ r < o.rowCount, ∀ k < o.paddedWidth, (r < sr ∨ r = sr ∧ k < c) → storedIndex o s.inmem r k < o.palCount.toNat) →
    ∃ m n,
      exec i s = .next { completedErr 6 (BitVec.ofNat 32 (storedIndex o s.inmem sr c)) (BitVec.ofNat 32 sr)
        (BitVec.ofNat 32 c) s with outmem := m, draws := n } ∧
      ∀ a, o.need ≤ a → m.read a = s.outmem.read a

/-- R381 to R384: each ORDER row shows the pixels with its own bytes, in the named order for OUT.BYTES and in the reverse
of it for OUT.WORDS. -/
def Obligations.ChannelOrderRowsPermuteTheBytes : Prop :=
  ∀ (s : State) (pix : Nat → Nat → Word),
    ∀ io ∈ [(Instr.orderRgba, 0#3), (.orderBgra, 1#3), (.orderArgb, 2#3), (.orderAbgr, 3#3)],
      let o := s.operands.withOrder io.2
      Admitted o → o.bpp ≠ 0#16 →
      (∀ sr < o.rowCount, ∀ c < o.paddedWidth, unpackPixel o s.pal s.inmem sr c = .ok (pix sr c)) →
      DecodesTo (exec io.1 s) o s pix ∧ o.order = io.2

/-- R375, R376: ORIENT.TOPDOWN's output row i and ORIENT.BOTTOMUP's output row H' - 1 - i come from the same stored row
and show the same bytes. -/
def Obligations.OrientationsMirrorEachOther : Prop :=
  ∀ (s : State) (pix : Nat → Nat → Word), let o := s.operands
    Admitted o → o.bpp ≠ 0#16 →
    (∀ sr < o.rowCount, ∀ c < o.paddedWidth, unpackPixel o s.pal s.inmem sr c = .ok (pix sr c)) →
    ∃ t u, exec .orientTopdown s = .next t ∧ exec .orientBottomup s = .next u ∧
      DecodesTo (exec .orientTopdown s) (o.withTopdown true) s pix ∧
      DecodesTo (exec .orientBottomup s) (o.withTopdown false) s pix ∧
      ∀ r < o.rowCount, ∀ c < o.imageWidth,
        shownBytes o t.outmem r c = shownBytes o u.outmem (o.rowCount - 1 - r) c

/-- R380, R385: OUT.BYTES writes the named bytes at rising addresses, OUT.WORDS in the reverse order; so OUT.WORDS with
ARGB writes what OUT.BYTES writes with BGRA. -/
def Obligations.OutputFormatsReverseEachOther : Prop :=
  ∀ (s : State) (pix : Nat → Nat → Word), let o := s.operands
    Admitted o → o.bpp ≠ 0#16 →
    (∀ sr < o.rowCount, ∀ c < o.paddedWidth, unpackPixel o s.pal s.inmem sr c = .ok (pix sr c)) →
    DecodesTo (exec .outBytes s) (o.withOutfmt false) s pix ∧
    DecodesTo (exec .outWords s) (o.withOutfmt true) s pix ∧
    ∀ p : Word, storedBytes true 2#3 p = storedBytes false 1#3 p

/-- R386: composing with RGBA and then permuting each group (q0, q1, q2, q3) to (q2, q1, q0, q3) gives what composing with
BGRA gives, for every decoded pixel of the byte format. -/
def Obligations.RgbaPermutedIsBgra : Prop :=
  ∀ (s : State) (pix : Nat → Nat → Word), let o := s.operands.withOrder 0#3
    Admitted o → o.bpp ≠ 0#16 → o.outfmt = false →
    (∀ sr < o.rowCount, ∀ c < o.paddedWidth, unpackPixel o s.pal s.inmem sr c = .ok (pix sr c)) →
    ∃ t u, exec .orderRgba s = .next t ∧ exec .orderBgra s = .next u ∧
      ∀ r < o.rowCount, ∀ c < o.imageWidth, ∀ q0 q1 q2 q3,
        shownBytes o t.outmem r c = [q0, q1, q2, q3] → shownBytes o u.outmem r c = [q2, q1, q0, q3]

/-- R387, R19: every unpacked pixel is opaque, on every path. -/
def Obligations.UnpackedPixelsAreOpaque : Prop :=
  ∀ (o : Regs) (pal : List PalEntry) (m : Memory) (sr c : Nat) (p : Word),
    unpackPixel o pal m sr c = .ok p → pixA p = 0xFF#8

/-- R320, R20, R324: the padded width is a whole number of pixels of the stored row, at least W, and only 24 bpp leaves
bytes over, fewer than 3. -/
def Obligations.PaddedRowsHoldTheirPixels : Prop :=
  ∀ o : Regs, 0 ≤ o.widthInt → o.bpp ∈ [1#16, 4#16, 8#16, 16#16, 24#16, 32#16] →
    o.imageWidth ≤ o.paddedWidth ∧ o.rowBytes % 4 = 0 ∧
    o.imageWidth * o.bpp.toNat ≤ 8 * o.rowBytes ∧ 8 * o.rowBytes < o.imageWidth * o.bpp.toNat + 32 ∧
    (o.bpp ≠ 24#16 → o.paddedWidth * o.bpp.toNat = 8 * o.rowBytes) ∧
    (o.bpp = 24#16 → 3 * o.paddedWidth ≤ o.rowBytes ∧ o.rowBytes < 3 * o.paddedWidth + 3)

/-! ## The host's side -/

/-- R476, R100: a host write of an INMEM byte that the pending DECODE, PAL_LOAD or MASK_LOAD reads is refused; every
other one, with the block idle or busy, writes that byte alone; the address 2^32-1 does not exist. -/
def Obligations.InmemHazardsAreRefused : Prop :=
  ∀ (s : State) (a : Word) (b : Byte),
    (a.toNat = 2 ^ 32 - 1 → s.hostOp (.inb a b) = .fault .inmemAddress) ∧
    (a.toNat ≠ 2 ^ 32 - 1 →
      (∀ p, s.pending = some p → ReadsInmem p.word p.snap a.toNat → s.hostOp (.inb a b) = .refused .inmemHazard) ∧
      ((∀ p, s.pending = some p → ¬ReadsInmem p.word p.snap a.toNat) →
        ∃ m : Memory, s.hostOp (.inb a b) = .next { s with inmem := m } ∧
          ∀ k, m.read k = if k = a.toNat then b else s.inmem.read k))

/-- R149: WAIT reads STATUS and stays at the head of the host's list while BUSY = 1; with the block idle it reads the
completion status and is done. -/
def Obligations.WaitHoldsUntilIdle : Prop :=
  ∀ s : State, s.rst = false →
    (s.busy = true → s.hostOp .wait = .next { s with busData := s.readReg .status, host := .wait :: s.host }) ∧
    (s.busy = false → s.hostOp .wait = .next { s with busData := s.readReg .status })

/-- R114, R100: a host read of an OUTMEM byte returns the stored byte and changes nothing else, with the block idle or at
or above OUT_LEN; below OUT_LEN while busy the byte is left free; the address 2^32-1 does not exist. -/
def Obligations.OutmemReadsGiveTheStoredByte : Prop :=
  ∀ (s : State) (a : Word),
    (a.toNat = 2 ^ 32 - 1 → s.hostOp (.outb a) = .fault .outmemAddress) ∧
    (a.toNat ≠ 2 ^ 32 - 1 →
      (s.pending = none ∨ s.regs.outLen.toNat ≤ a.toNat →
        s.hostOp (.outb a) = .next { s with outData := s.outmem.read a.toNat }) ∧
      (s.pending ≠ none → a.toNat < s.regs.outLen.toNat →
        ∃ b n, s.hostOp (.outb a) = .next { s with outData := b, draws := n }))
end

