-- ==== Sys2Proof/Laws/Memory.lean ====
section
/-! SUPPORT. The laws of byte memory: what a read gives after a write, and that every operation keeps the canonical
form. -/

namespace Sys2Proof.Machine

theorem Memory.read_filter_ne (m : Memory) (a b : Nat) :
    Memory.read (m.filter fun c => c.1 ≠ a) b = if b = a then Config.unlisted else m.read b := by
  induction m with
  | nil => simp [Memory.read]
  | cons c m ih =>
    obtain ⟨k, v⟩ := c
    by_cases hk : k = a
    · subst hk
      by_cases hb : b = k
      · simp_all
      · simp_all [Memory.read, eq_comm]
    · by_cases hb : b = a
      · simp_all [Memory.read]
      · by_cases hkb : k = b <;> simp_all [Memory.read]

theorem Memory.read_insert (m : Memory) (a b : Nat) (v : Byte) (h : ∀ c ∈ m, c.1 ≠ a) :
    Memory.read (Memory.insert m a v) b = if b = a then v else m.read b := by
  induction m with
  | nil => simp [Memory.insert, Memory.read, eq_comm]
  | cons c m ih =>
    obtain ⟨k, w⟩ := c
    have hk : k ≠ a := h (k, w) (by simp)
    have ih' := ih fun c hc => h c (by simp [hc])
    unfold Memory.insert
    split
    · by_cases hb : b = a
      · simp [Memory.read, hb]
      · simp [Memory.read, hb, Ne.symm hb]
    · by_cases hkb : k = b
      · subst hkb; simp [Memory.read, hk]
      · simp [Memory.read, hkb, ih']

/-- A read after a write: the value written at its address, the old byte everywhere else. -/
@[simp] theorem Memory.read_write (m : Memory) (a b : Nat) (v : Byte) :
    (m.write a v).read b = if b = a then v else m.read b := by
  unfold Memory.write
  by_cases hv : v = Config.unlisted
  · simp only [hv, if_true]; exact Memory.read_filter_ne m a b
  · simp only [hv, if_false]
    rw [Memory.read_insert _ _ _ _ (by simp), Memory.read_filter_ne]
    split <;> rfl

theorem Memory.mem_insert {m : Memory} {a : Nat} {v : Byte} {c : Host.Cell} (h : c ∈ Memory.insert m a v) :
    c = (a, v) ∨ c ∈ m := by
  induction m with
  | nil => simpa [Memory.insert] using h
  | cons d m ih =>
    unfold Memory.insert at h
    split at h
    · simpa using h
    · rcases List.mem_cons.1 h with h | h
      · exact .inr (by simp [h])
      · exact (ih h).imp_right fun h => by simp [h]

theorem Memory.pairwise_insert {m : Memory} {a : Nat} {v : Byte} (hs : m.Pairwise fun x y => x.1 < y.1)
    (h : ∀ c ∈ m, c.1 ≠ a) : (Memory.insert m a v).Pairwise fun x y => x.1 < y.1 := by
  induction m with
  | nil => simp [Memory.insert]
  | cons d m ih =>
    obtain ⟨k, w⟩ := d
    rw [List.pairwise_cons] at hs
    have hka : k ≠ a := h (k, w) (by simp)
    unfold Memory.insert
    split
    · rename_i hlt
      refine List.pairwise_cons.2 ⟨fun c hc => ?_, List.pairwise_cons.2 hs⟩
      rcases List.mem_cons.1 hc with rfl | hc
      · exact hlt
      · exact lt_trans hlt (hs.1 c hc)
    · rename_i hlt
      refine List.pairwise_cons.2 ⟨fun c hc => ?_, ih hs.2 fun c hc => h c (by simp [hc])⟩
      rcases Memory.mem_insert hc with rfl | hc
      · exact lt_of_le_of_ne (not_lt.1 hlt) hka
      · exact hs.1 c hc

/-- A write to an existing address keeps the canonical form. -/
theorem Memory.wf_write {m : Memory} {a : Nat} {v : Byte} (hm : m.wf) (ha : a < Config.memTop) :
    (m.write a v).wf := by
  obtain ⟨hs, hc⟩ := hm
  have hs' : (m.filter fun c => c.1 ≠ a).Pairwise fun x y => x.1 < y.1 := hs.filter _
  unfold Memory.write
  split
  · exact ⟨hs', fun c h => hc c (List.mem_of_mem_filter h)⟩
  · rename_i hv
    refine ⟨Memory.pairwise_insert hs' (by simp), fun c h => ?_⟩
    rcases Memory.mem_insert h with rfl | h
    · exact ⟨ha, hv⟩
    · exact hc c (List.mem_of_mem_filter h)

theorem Memory.wf_nil : Memory.wf [] := ⟨List.Pairwise.nil, by simp⟩

/-- A little-endian write keeps the canonical form where its bytes exist. -/
theorem Memory.wf_writeLE {m : Memory} {a n v : Nat} (hm : m.wf) (ha : a + n ≤ Config.memTop) :
    (m.writeLE a n v).wf := by
  induction n generalizing m a v with
  | zero => exact hm
  | succ n ih => exact ih (Memory.wf_write hm (by omega)) (by omega)

/-- What a fill leaves: its bytes below `n`, the old ones above. -/
@[simp] theorem Memory.read_fill (m : Memory) (f : Nat → Byte) (n b : Nat) :
    (m.fill f n).read b = if b < n then f b else m.read b := by
  induction n with
  | zero => simp [Memory.fill]
  | succ n ih =>
    rw [Memory.fill, Memory.read_write, ih]
    by_cases h : b = n
    · subst h; simp
    · have : b < n + 1 ↔ b < n := by omega
      simp [h, this]

theorem Memory.wf_fill {m : Memory} {f : Nat → Byte} {n : Nat} (hm : m.wf) (hn : n ≤ Config.memTop) :
    (m.fill f n).wf := by
  induction n with
  | zero => exact hm
  | succ n ih => exact Memory.wf_write (ih (by omega)) (by omega)

/-- A little-endian read fits its bytes. -/
theorem Memory.readLE_lt (m : Memory) (a n : Nat) : m.readLE a n < 256 ^ n := by
  induction n generalizing a with
  | zero => simp [Memory.readLE]
  | succ n ih =>
    have := ih (a + 1)
    have hb : (m.read a).toNat < 256 := (m.read a).isLt
    rw [Memory.readLE, pow_succ]
    omega

/-- Two memories that agree on a range read the same number there. -/
theorem Memory.readLE_congr {m m' : Memory} {a n : Nat} (h : ∀ k < n, m.read (a + k) = m'.read (a + k)) :
    m.readLE a n = m'.readLE a n := by
  induction n generalizing a with
  | zero => rfl
  | succ n ih =>
    have h0 := h 0 (by omega)
    simp only [Nat.add_zero] at h0
    rw [Memory.readLE, Memory.readLE, h0, ih fun k hk => ?_]
    have := h (k + 1) (by omega)
    rwa [show a + 1 + k = a + (k + 1) by omega]

/-- The bytes of a pixel in the order the output format puts them in memory (R380, R385). -/
def Quad.stored (q : Quad) (outfmt : Bool) : Nat → Byte
  | 0 => if outfmt then q.q3 else q.q0
  | 1 => if outfmt then q.q2 else q.q1
  | 2 => if outfmt then q.q1 else q.q2
  | _ => if outfmt then q.q0 else q.q3

theorem quadWord_bytes (q : Quad) :
    BitVec.ofNat 8 (quadWord q).toNat = q.q3 ∧ BitVec.ofNat 8 ((quadWord q).toNat / 256) = q.q2 ∧
    BitVec.ofNat 8 ((quadWord q).toNat / 256 / 256) = q.q1 ∧
    BitVec.ofNat 8 ((quadWord q).toNat / 256 / 256 / 256) = q.q0 := by
  obtain ⟨q0, q1, q2, q3⟩ := q
  have h : (quadWord ⟨q0, q1, q2, q3⟩).toNat = ((q0.toNat * 256 + q1.toNat) * 256 + q2.toNat) * 256 + q3.toNat := by
    simp only [quadWord, BitVec.toNat_append]
    have e : ∀ x : Nat, ∀ y : Byte, x <<< 8 ||| y.toNat = x * 256 + y.toNat := fun x y => by
      rw [← Nat.shiftLeft_add_eq_or_of_lt y.isLt, Nat.shiftLeft_eq]
    simp only [e]
  have b0 := q0.isLt
  have b1 := q1.isLt
  have b2 := q2.isLt
  have b3 := q3.isLt
  rw [h]
  refine ⟨?_, ?_, ?_, ?_⟩ <;> apply BitVec.eq_of_toNat_eq <;> simp only [BitVec.toNat_ofNat] <;> omega

/-- What one written pixel leaves: its four bytes, everything else as it was. -/
theorem Memory.read_writePixel (outfmt : Bool) (m : Memory) (k b : Nat) (q : Quad) :
    (writePixel outfmt m k q).read b =
      if k ≤ b ∧ b < k + 4 then q.stored outfmt (b - k) else m.read b := by
  obtain ⟨h3, h2, h1, h0⟩ := quadWord_bytes q
  have key : ∀ v0 v1 v2 v3 : Byte, ((((m.write k v0).write (k + 1) v1).write (k + 2) v2).write (k + 3) v3).read b =
      if k ≤ b ∧ b < k + 4 then (if b - k = 0 then v0 else if b - k = 1 then v1 else if b - k = 2 then v2 else v3)
      else m.read b := by
    intro v0 v1 v2 v3
    simp only [Memory.read_write]
    by_cases hin : k ≤ b ∧ b < k + 4
    · obtain ⟨d, rfl⟩ := Nat.exists_eq_add_of_le hin.1
      have hd : d = 0 ∨ d = 1 ∨ d = 2 ∨ d = 3 := by omega
      rcases hd with rfl | rfl | rfl | rfl <;> simp
    · rw [if_neg hin]
      repeat rw [if_neg (by omega)]
  have stored : ∀ d, q.stored outfmt d = if d = 0 then q.stored outfmt 0 else if d = 1 then q.stored outfmt 1
      else if d = 2 then q.stored outfmt 2 else q.stored outfmt 3 := by
    intro d
    match d with
    | 0 => rfl
    | 1 => rfl
    | 2 => rfl
    | d + 3 => simp [Quad.stored]
  rw [stored (b - k)]
  cases outfmt with
  | true =>
    have : writePixel true m k q = (((m.write k q.q3).write (k + 1) q.q2).write (k + 2) q.q1).write (k + 3) q.q0 := by
      simp only [writePixel, Sys2Proof.decodeOutfmt, if_true, writePixelWord, Memory.writeLE, h0, h1, h2, h3,
        show k + 1 + 1 = k + 2 from rfl, show k + 2 + 1 = k + 3 from rfl]
    rw [this, key]; simp [Quad.stored]
  | false =>
    have : writePixel false m k q = (((m.write k q.q0).write (k + 1) q.q1).write (k + 2) q.q2).write (k + 3) q.q3 := by
      simp [writePixel, Sys2Proof.decodeOutfmt, writePixelBytes]
    rw [this, key]; simp [Quad.stored]

theorem Memory.wf_writePixel {outfmt : Bool} {m : Memory} {k : Nat} {q : Quad} (hm : m.wf)
    (hk : k + 3 < Config.memTop) : (writePixel outfmt m k q).wf := by
  unfold writePixel
  split
  · simp only [writePixelWord, Memory.writeLE]
    exact Memory.wf_write (Memory.wf_write (Memory.wf_write (Memory.wf_write hm (by omega)) (by omega)) (by omega)) (by omega)
  · exact Memory.wf_write (Memory.wf_write (Memory.wf_write (Memory.wf_write hm (by omega)) (by omega)) (by omega)) hk

end Sys2Proof.Machine
end

