-- ==== Sys2Proof/Laws/Loops.lean ====
section
/-! SUPPORT. What the shared loops and searches answer, and what the compose step leaves in memory. -/

namespace Sys2Proof.Machine

/-- `collect` succeeds exactly with the list of the results in order. -/
theorem collect_eq_ok {ε α : Type} {f : Nat → Except ε α} {n : Nat} {xs : List α} :
    collect f n = .ok xs ↔ xs.length = n ∧ ∀ i (h : i < xs.length), f i = .ok xs[i] := by
  induction n generalizing xs with
  | zero =>
    simp only [collect, Except.ok.injEq]
    constructor
    · rintro rfl; simp
    · rintro ⟨h, -⟩; exact (List.eq_nil_of_length_eq_zero h).symm
  | succ n ih =>
    constructor
    · intro h
      simp only [collect] at h
      split at h
      · cases h
      · rename_i ys hys
        split at h
        · cases h
        · rename_i x hx
          obtain rfl : ys ++ [x] = xs := by simpa using h
          obtain ⟨rfl, hf⟩ := ih.1 hys
          refine ⟨by simp, fun i hi => ?_⟩
          rcases Nat.lt_or_ge i ys.length with h1 | h1
          · rw [List.getElem_append_left h1]; exact hf i h1
          · obtain rfl : i = ys.length := by simp at hi; omega
            simpa using hx
    · rintro ⟨hl, hf⟩
      have hne : xs ≠ [] := by rintro rfl; simp at hl
      obtain ⟨ys, x, rfl⟩ : ∃ ys x, xs = ys ++ [x] :=
        ⟨xs.dropLast, xs.getLast hne, (List.dropLast_append_getLast hne).symm⟩
      obtain rfl : ys.length = n := by simpa using hl
      have hys : collect f ys.length = .ok ys := ih.2 ⟨rfl, fun i hi => by
        rw [hf i (by simp; omega), List.getElem_append_left hi]⟩
      have hx : f ys.length = .ok x := by simpa using hf ys.length (by simp)
      simp [collect, hys, hx]

/-- Where `collect` fails, some index fails with that error and every lower one succeeds. -/
theorem collect_error {ε α : Type} {f : Nat → Except ε α} {n : Nat} {e : ε} (h : collect f n = .error e) :
    ∃ i < n, f i = .error e ∧ ∀ j < i, ∃ x, f j = .ok x := by
  induction n with
  | zero => simp [collect] at h
  | succ n ih =>
    simp only [collect] at h
    split at h
    · rename_i e' he
      cases h
      obtain ⟨i, hi, hrest⟩ := ih he
      exact ⟨i, by omega, hrest⟩
    · rename_i ys hys
      obtain ⟨hl, hf⟩ := collect_eq_ok.1 hys
      split at h
      · rename_i e' he
        cases h
        exact ⟨n, by omega, he, fun j hj => ⟨_, hf j (by omega)⟩⟩
      · cases h

/-- `collect` fails exactly with the error of the lowest failing index. -/
theorem collect_eq_error {ε α : Type} {f : Nat → Except ε α} {n : Nat} {e : ε} :
    collect f n = .error e ↔ ∃ i < n, f i = .error e ∧ ∀ j < i, ∃ x, f j = .ok x := by
  refine ⟨collect_error, ?_⟩
  rintro ⟨i, hi, he, hlow⟩
  rcases hc : collect f n with e' | xs
  · obtain ⟨i', -, he', hlow'⟩ := collect_error hc
    have : i' = i := by
      rcases Nat.lt_trichotomy i' i with h | h | h
      · obtain ⟨x, hx⟩ := hlow i' h; simp [hx] at he'
      · exact h
      · obtain ⟨x, hx⟩ := hlow' i h; simp [hx] at he
    subst this
    cases he'.symm.trans he; rfl
  · obtain ⟨hl, hf⟩ := collect_eq_ok.1 hc
    have := hf i (by omega)
    simp [he] at this

theorem firstSuch_eq_none {p : Nat → Bool} {n : Nat} : firstSuch p n = none ↔ ∀ i < n, p i = false := by
  induction n with
  | zero => simp [firstSuch]
  | succ n ih =>
    rw [firstSuch]
    rcases hc : firstSuch p n with - | k
    · have := ih.1 hc
      simp only [ite_eq_right_iff, reduceCtorEq, imp_false, Bool.not_eq_true]
      exact ⟨fun hn i hi => (Nat.lt_succ_iff_lt_or_eq.1 hi).elim (this i) fun h => h ▸ hn, fun h => h n (by omega)⟩
    · simp only [reduceCtorEq, false_iff]
      intro h
      have := ih.2 fun i hi => h i (by omega)
      simp [hc] at this

theorem firstSuch_some {p : Nat → Bool} {n i : Nat} (h : firstSuch p n = some i) :
    i < n ∧ p i = true ∧ ∀ j < i, p j = false := by
  induction n with
  | zero => simp [firstSuch] at h
  | succ n ih =>
    rw [firstSuch] at h
    rcases hc : firstSuch p n with - | k
    · simp only [hc] at h
      split at h
      · rename_i hp
        obtain rfl : n = i := by simpa using h
        exact ⟨by omega, hp, firstSuch_eq_none.1 hc⟩
      · cases h
    · obtain rfl : k = i := by simpa [hc] using h
      exact ⟨by have := (ih hc).1; omega, (ih hc).2⟩

/-- `firstSuch` answers the lowest index that satisfies the predicate. -/
theorem firstSuch_eq_some {p : Nat → Bool} {n i : Nat} :
    firstSuch p n = some i ↔ i < n ∧ p i = true ∧ ∀ j < i, p j = false := by
  refine ⟨firstSuch_some, ?_⟩
  rintro ⟨hi, hp, hlow⟩
  rcases hc : firstSuch p n with - | k
  · have := firstSuch_eq_none.1 hc i hi
    simp [hp] at this
  · obtain ⟨-, hk, hlow'⟩ := firstSuch_some hc
    rcases Nat.lt_trichotomy k i with h | h | h
    · simp [hlow k h] at hk
    · rw [h]
    · simp [hlow' i h] at hp

/-- A property that holds at the start and that every turn keeps holds at the end. -/
theorem loop_induct {σ : Type} {f : Nat → σ → σ} {n : Nat} {s : σ} (P : σ → Prop) (h0 : P s)
    (hf : ∀ i < n, ∀ t, P t → P (f i t)) : P (loop f n s) := by
  induction n with
  | zero => exact h0
  | succ n ih => exact hf n (by omega) _ (ih fun i hi => hf i (by omega))

/-- One output row: `n` pixels from column 0 on, packed from address `4 * base`. -/
theorem read_composeRow (outfmt : Bool) (q : Nat → Quad) (base n b : Nat) (m : Memory) :
    Memory.read (loop (fun c m => writePixel outfmt m (4 * (base + c)) (q c)) n m) b =
      if 4 * base ≤ b ∧ b < 4 * (base + n) then (q (b / 4 - base)).stored outfmt (b % 4) else m.read b := by
  induction n with
  | zero => rw [if_neg (by omega)]; rfl
  | succ n ih =>
    rw [loop, Memory.read_writePixel, ih]
    by_cases h : 4 * (base + n) ≤ b ∧ b < 4 * (base + n) + 4
    · rw [if_pos h, if_pos (by omega), show b / 4 - base = n by omega, show b - 4 * (base + n) = b % 4 by omega]
    · rw [if_neg h]
      by_cases h' : 4 * base ≤ b ∧ b < 4 * (base + n)
      · rw [if_pos h', if_pos (by omega)]
      · rw [if_neg h', if_neg (by omega)]

/-- The pixel that output row r, column c shows. -/
def shownQuad (o : Regs) (pix : List (List Word)) (r c : Nat) : Quad :=
  channels (pixelAt pix (sourceRow o.storedTopDown o.topdown o.rowCount r) c) o.order

/-- What the compose step leaves in OUTMEM (R371): byte b below 4·W·H' is byte b mod 4 of the pixel of its row and
column; every other byte is as it was. -/
theorem read_compose (o : Regs) (pix : List (List Word)) (m : Memory) (b : Nat) :
    (compose o pix m).read b =
      if b < 4 * (o.imageWidth * o.rowCount) then
        (shownQuad o pix (b / 4 / o.imageWidth) (b / 4 % o.imageWidth)).stored o.outfmt (b % 4)
      else m.read b := by
  have main : ∀ n, Memory.read (loop (fun r m =>
      loop (fun c m => writePixel o.outfmt m (4 * (r * o.imageWidth + c)) (shownQuad o pix r c)) o.imageWidth m) n m) b =
      if b < 4 * (o.imageWidth * n) then
        (shownQuad o pix (b / 4 / o.imageWidth) (b / 4 % o.imageWidth)).stored o.outfmt (b % 4)
      else m.read b := by
    intro n
    induction n with
    | zero => simp [loop]
    | succ n ih =>
      rw [loop, read_composeRow, ih]
      set W := o.imageWidth with hW
      have e1 : W * (n + 1) = n * W + W := by ring
      have e2 : W * n = n * W := by ring
      rw [e1, e2]
      by_cases h : 4 * (n * W) ≤ b ∧ b < 4 * (n * W + W)
      · rw [if_pos h, if_pos h.2]
        have hlt : b / 4 - n * W < W := by omega
        have hge : n * W ≤ b / 4 := by omega
        have hq : b / 4 = (b / 4 - n * W) + W * n := by rw [e2]; omega
        have hWpos : 0 < W := by omega
        have hdiv : b / 4 / W = n := by
          rw [hq, Nat.add_mul_div_left _ _ hWpos, Nat.div_eq_of_lt hlt]; omega
        have hmod : b / 4 % W = b / 4 - n * W := by
          conv_lhs => rw [hq]
          rw [Nat.add_mul_mod_self_left, Nat.mod_eq_of_lt hlt]
        rw [hdiv, hmod]
      · rw [if_neg h]
        by_cases h' : b < 4 * (n * W)
        · rw [if_pos h', if_pos (by omega)]
        · rw [if_neg h', if_neg (by omega)]
  exact main o.rowCount

/-- Byte j of the pixel shown at row r, column c. -/
theorem read_compose_pixel (o : Regs) (pix : List (List Word)) (m : Memory) {r c j : Nat} (hr : r < o.rowCount)
    (hc : c < o.imageWidth) (hj : j < 4) :
    (compose o pix m).read (4 * (r * o.imageWidth + c) + j) = (shownQuad o pix r c).stored o.outfmt j := by
  have hlt : r * o.imageWidth + c < o.imageWidth * o.rowCount := by
    calc r * o.imageWidth + c < r * o.imageWidth + o.imageWidth := by omega
      _ = o.imageWidth * (r + 1) := by ring
      _ ≤ o.imageWidth * o.rowCount := Nat.mul_le_mul_left _ hr
  rw [read_compose, if_pos (by omega)]
  have h4 : (4 * (r * o.imageWidth + c) + j) / 4 = r * o.imageWidth + c := by omega
  have hm : (4 * (r * o.imageWidth + c) + j) % 4 = j := by omega
  have hd : (r * o.imageWidth + c) / o.imageWidth = r := by
    rw [Nat.add_comm, Nat.add_mul_div_right _ _ (by omega), Nat.div_eq_of_lt hc]; omega
  have hmod : (r * o.imageWidth + c) % o.imageWidth = c := by
    rw [Nat.add_comm, Nat.add_mul_mod_self_right, Nat.mod_eq_of_lt hc]
  rw [h4, hm, hd, hmod]

/-- The compose step keeps the canonical form where its bytes exist. -/
theorem wf_compose {o : Regs} {pix : List (List Word)} {m : Memory} (hm : m.wf)
    (h : 4 * (o.imageWidth * o.rowCount) ≤ Config.memTop) : (compose o pix m).wf := by
  refine loop_induct Memory.wf hm fun r hr t ht => loop_induct Memory.wf ht fun c hc u hu => ?_
  refine Memory.wf_writePixel hu ?_
  have : r * o.imageWidth + c < o.imageWidth * o.rowCount := by
    calc r * o.imageWidth + c < r * o.imageWidth + o.imageWidth := by omega
      _ = o.imageWidth * (r + 1) := by ring
      _ ≤ o.imageWidth * o.rowCount := Nat.mul_le_mul_left _ hr
  omega

end Sys2Proof.Machine
end

