-- ==== Sys2Proof/Laws/State.lean ====
section
/-! SUPPORT. One lemma for each field and each shared update, true by definition, so that no later proof unfolds a record
update. -/

namespace Sys2Proof.Machine

/-! The registers at acceptance (R200) -/

@[simp] theorem Regs.accepted_cmd (w : Word) (r : Regs) : (r.accepted w).cmd = w := rfl
@[simp] theorem Regs.accepted_done (w : Word) (r : Regs) : (r.accepted w).done = false := rfl
@[simp] theorem Regs.accepted_err (w : Word) (r : Regs) : (r.accepted w).err = false := rfl
@[simp] theorem Regs.accepted_errcode (w : Word) (r : Regs) : (r.accepted w).errcode = 0#4 := rfl
@[simp] theorem Regs.accepted_errinfo (w : Word) (r : Regs) : (r.accepted w).errinfo = 0#32 := rfl
@[simp] theorem Regs.accepted_errrow (w : Word) (r : Regs) : (r.accepted w).errrow = 0#32 := rfl
@[simp] theorem Regs.accepted_errcol (w : Word) (r : Regs) : (r.accepted w).errcol = 0#32 := rfl
@[simp] theorem Regs.accepted_ie (w : Word) (r : Regs) : (r.accepted w).ie = r.ie := rfl
@[simp] theorem Regs.accepted_width (w : Word) (r : Regs) : (r.accepted w).width = r.width := rfl
@[simp] theorem Regs.accepted_height (w : Word) (r : Regs) : (r.accepted w).height = r.height := rfl
@[simp] theorem Regs.accepted_bpp (w : Word) (r : Regs) : (r.accepted w).bpp = r.bpp := rfl
@[simp] theorem Regs.accepted_compression (w : Word) (r : Regs) : (r.accepted w).compression = r.compression := rfl
@[simp] theorem Regs.accepted_rmask (w : Word) (r : Regs) : (r.accepted w).rmask = r.rmask := rfl
@[simp] theorem Regs.accepted_gmask (w : Word) (r : Regs) : (r.accepted w).gmask = r.gmask := rfl
@[simp] theorem Regs.accepted_bmask (w : Word) (r : Regs) : (r.accepted w).bmask = r.bmask := rfl
@[simp] theorem Regs.accepted_fmt (w : Word) (r : Regs) : (r.accepted w).fmt = r.fmt := rfl
@[simp] theorem Regs.accepted_pixBase (w : Word) (r : Regs) : (r.accepted w).pixBase = r.pixBase := rfl
@[simp] theorem Regs.accepted_inLen (w : Word) (r : Regs) : (r.accepted w).inLen = r.inLen := rfl
@[simp] theorem Regs.accepted_outLen (w : Word) (r : Regs) : (r.accepted w).outLen = r.outLen := rfl
@[simp] theorem Regs.accepted_palBase (w : Word) (r : Regs) : (r.accepted w).palBase = r.palBase := rfl
@[simp] theorem Regs.accepted_palLen (w : Word) (r : Regs) : (r.accepted w).palLen = r.palLen := rfl
@[simp] theorem Regs.accepted_maskBase (w : Word) (r : Regs) : (r.accepted w).maskBase = r.maskBase := rfl
@[simp] theorem Regs.accepted_palCount (w : Word) (r : Regs) : (r.accepted w).palCount = r.palCount := rfl
@[simp] theorem Regs.accepted_arg (w : Word) (r : Regs) : (r.accepted w).arg = r.arg := rfl
@[simp] theorem Regs.accepted_result (w : Word) (r : Regs) : (r.accepted w).result = 0#32 := rfl
@[simp] theorem Regs.accepted_outCount (w : Word) (r : Regs) : (r.accepted w).outCount = 0#32 := rfl

/-! The registers at a completion without error (R201) -/

@[simp] theorem Regs.succeeded_cmd (r : Regs) : r.succeeded.cmd = r.cmd := rfl
@[simp] theorem Regs.succeeded_done (r : Regs) : r.succeeded.done = true := rfl
@[simp] theorem Regs.succeeded_err (r : Regs) : r.succeeded.err = false := rfl
@[simp] theorem Regs.succeeded_errcode (r : Regs) : r.succeeded.errcode = 0#4 := rfl
@[simp] theorem Regs.succeeded_errinfo (r : Regs) : r.succeeded.errinfo = 0#32 := rfl
@[simp] theorem Regs.succeeded_errrow (r : Regs) : r.succeeded.errrow = 0#32 := rfl
@[simp] theorem Regs.succeeded_errcol (r : Regs) : r.succeeded.errcol = 0#32 := rfl
@[simp] theorem Regs.succeeded_ie (r : Regs) : r.succeeded.ie = r.ie := rfl
@[simp] theorem Regs.succeeded_width (r : Regs) : r.succeeded.width = r.width := rfl
@[simp] theorem Regs.succeeded_height (r : Regs) : r.succeeded.height = r.height := rfl
@[simp] theorem Regs.succeeded_bpp (r : Regs) : r.succeeded.bpp = r.bpp := rfl
@[simp] theorem Regs.succeeded_compression (r : Regs) : r.succeeded.compression = r.compression := rfl
@[simp] theorem Regs.succeeded_rmask (r : Regs) : r.succeeded.rmask = r.rmask := rfl
@[simp] theorem Regs.succeeded_gmask (r : Regs) : r.succeeded.gmask = r.gmask := rfl
@[simp] theorem Regs.succeeded_bmask (r : Regs) : r.succeeded.bmask = r.bmask := rfl
@[simp] theorem Regs.succeeded_fmt (r : Regs) : r.succeeded.fmt = r.fmt := rfl
@[simp] theorem Regs.succeeded_pixBase (r : Regs) : r.succeeded.pixBase = r.pixBase := rfl
@[simp] theorem Regs.succeeded_inLen (r : Regs) : r.succeeded.inLen = r.inLen := rfl
@[simp] theorem Regs.succeeded_outLen (r : Regs) : r.succeeded.outLen = r.outLen := rfl
@[simp] theorem Regs.succeeded_palBase (r : Regs) : r.succeeded.palBase = r.palBase := rfl
@[simp] theorem Regs.succeeded_palLen (r : Regs) : r.succeeded.palLen = r.palLen := rfl
@[simp] theorem Regs.succeeded_maskBase (r : Regs) : r.succeeded.maskBase = r.maskBase := rfl
@[simp] theorem Regs.succeeded_palCount (r : Regs) : r.succeeded.palCount = r.palCount := rfl
@[simp] theorem Regs.succeeded_arg (r : Regs) : r.succeeded.arg = r.arg := rfl
@[simp] theorem Regs.succeeded_result (r : Regs) : r.succeeded.result = r.result := rfl
@[simp] theorem Regs.succeeded_outCount (r : Regs) : r.succeeded.outCount = r.outCount := rfl

/-! The registers at a completion with an error (R201) -/

@[simp] theorem Regs.failed_cmd (k : BitVec 4) (i rw cl : Word) (r : Regs) : (r.failed k i rw cl).cmd = r.cmd := rfl
@[simp] theorem Regs.failed_done (k : BitVec 4) (i rw cl : Word) (r : Regs) : (r.failed k i rw cl).done = true := rfl
@[simp] theorem Regs.failed_err (k : BitVec 4) (i rw cl : Word) (r : Regs) : (r.failed k i rw cl).err = true := rfl
@[simp] theorem Regs.failed_errcode (k : BitVec 4) (i rw cl : Word) (r : Regs) : (r.failed k i rw cl).errcode = k := rfl
@[simp] theorem Regs.failed_errinfo (k : BitVec 4) (i rw cl : Word) (r : Regs) : (r.failed k i rw cl).errinfo = i := rfl
@[simp] theorem Regs.failed_errrow (k : BitVec 4) (i rw cl : Word) (r : Regs) : (r.failed k i rw cl).errrow = rw := rfl
@[simp] theorem Regs.failed_errcol (k : BitVec 4) (i rw cl : Word) (r : Regs) : (r.failed k i rw cl).errcol = cl := rfl
@[simp] theorem Regs.failed_ie (k : BitVec 4) (i rw cl : Word) (r : Regs) : (r.failed k i rw cl).ie = r.ie := rfl
@[simp] theorem Regs.failed_width (k : BitVec 4) (i rw cl : Word) (r : Regs) : (r.failed k i rw cl).width = r.width := rfl
@[simp] theorem Regs.failed_height (k : BitVec 4) (i rw cl : Word) (r : Regs) : (r.failed k i rw cl).height = r.height := rfl
@[simp] theorem Regs.failed_bpp (k : BitVec 4) (i rw cl : Word) (r : Regs) : (r.failed k i rw cl).bpp = r.bpp := rfl
@[simp] theorem Regs.failed_compression (k : BitVec 4) (i rw cl : Word) (r : Regs) : (r.failed k i rw cl).compression = r.compression := rfl
@[simp] theorem Regs.failed_rmask (k : BitVec 4) (i rw cl : Word) (r : Regs) : (r.failed k i rw cl).rmask = r.rmask := rfl
@[simp] theorem Regs.failed_gmask (k : BitVec 4) (i rw cl : Word) (r : Regs) : (r.failed k i rw cl).gmask = r.gmask := rfl
@[simp] theorem Regs.failed_bmask (k : BitVec 4) (i rw cl : Word) (r : Regs) : (r.failed k i rw cl).bmask = r.bmask := rfl
@[simp] theorem Regs.failed_fmt (k : BitVec 4) (i rw cl : Word) (r : Regs) : (r.failed k i rw cl).fmt = r.fmt := rfl
@[simp] theorem Regs.failed_pixBase (k : BitVec 4) (i rw cl : Word) (r : Regs) : (r.failed k i rw cl).pixBase = r.pixBase := rfl
@[simp] theorem Regs.failed_inLen (k : BitVec 4) (i rw cl : Word) (r : Regs) : (r.failed k i rw cl).inLen = r.inLen := rfl
@[simp] theorem Regs.failed_outLen (k : BitVec 4) (i rw cl : Word) (r : Regs) : (r.failed k i rw cl).outLen = r.outLen := rfl
@[simp] theorem Regs.failed_palBase (k : BitVec 4) (i rw cl : Word) (r : Regs) : (r.failed k i rw cl).palBase = r.palBase := rfl
@[simp] theorem Regs.failed_palLen (k : BitVec 4) (i rw cl : Word) (r : Regs) : (r.failed k i rw cl).palLen = r.palLen := rfl
@[simp] theorem Regs.failed_maskBase (k : BitVec 4) (i rw cl : Word) (r : Regs) : (r.failed k i rw cl).maskBase = r.maskBase := rfl
@[simp] theorem Regs.failed_palCount (k : BitVec 4) (i rw cl : Word) (r : Regs) : (r.failed k i rw cl).palCount = r.palCount := rfl
@[simp] theorem Regs.failed_arg (k : BitVec 4) (i rw cl : Word) (r : Regs) : (r.failed k i rw cl).arg = r.arg := rfl
@[simp] theorem Regs.failed_result (k : BitVec 4) (i rw cl : Word) (r : Regs) : (r.failed k i rw cl).result = r.result := rfl
@[simp] theorem Regs.failed_outCount (k : BitVec 4) (i rw cl : Word) (r : Regs) : (r.failed k i rw cl).outCount = r.outCount := rfl

/-! The state at acceptance (R200) -/

@[simp] theorem State.accept_regs (w : Word) (d : Nat) (s : State) : (s.accept w d).regs = s.regs.accepted w := rfl
@[simp] theorem State.accept_pal (w : Word) (d : Nat) (s : State) : (s.accept w d).pal = s.pal := rfl
@[simp] theorem State.accept_pending (w : Word) (d : Nat) (s : State) : (s.accept w d).pending = some ⟨w, s.regs.accepted w, d⟩ := rfl
@[simp] theorem State.accept_cursor (w : Word) (d : Nat) (s : State) : (s.accept w d).cursor = if w = 5#32 then some ⟨0, 0⟩ else none := rfl
@[simp] theorem State.accept_rst (w : Word) (d : Nat) (s : State) : (s.accept w d).rst = s.rst := rfl
@[simp] theorem State.accept_inmem (w : Word) (d : Nat) (s : State) : (s.accept w d).inmem = s.inmem := rfl
@[simp] theorem State.accept_outmem (w : Word) (d : Nat) (s : State) : (s.accept w d).outmem = s.outmem := rfl
@[simp] theorem State.accept_host (w : Word) (d : Nat) (s : State) : (s.accept w d).host = s.host := rfl
@[simp] theorem State.accept_busData (w : Word) (d : Nat) (s : State) : (s.accept w d).busData = s.busData := rfl
@[simp] theorem State.accept_outData (w : Word) (d : Nat) (s : State) : (s.accept w d).outData = s.outData := rfl
@[simp] theorem State.accept_draws (w : Word) (d : Nat) (s : State) : (s.accept w d).draws = s.draws := rfl

/-! The state at a completion (R201) -/

@[simp] theorem State.succeed_regs (s : State) : s.succeed.regs = s.regs.succeeded := rfl
@[simp] theorem State.succeed_pal (s : State) : s.succeed.pal = s.pal := rfl
@[simp] theorem State.succeed_pending (s : State) : s.succeed.pending = none := rfl
@[simp] theorem State.succeed_cursor (s : State) : s.succeed.cursor = none := rfl
@[simp] theorem State.succeed_rst (s : State) : s.succeed.rst = s.rst := rfl
@[simp] theorem State.succeed_inmem (s : State) : s.succeed.inmem = s.inmem := rfl
@[simp] theorem State.succeed_outmem (s : State) : s.succeed.outmem = s.outmem := rfl
@[simp] theorem State.succeed_host (s : State) : s.succeed.host = s.host := rfl
@[simp] theorem State.succeed_busData (s : State) : s.succeed.busData = s.busData := rfl
@[simp] theorem State.succeed_outData (s : State) : s.succeed.outData = s.outData := rfl
@[simp] theorem State.succeed_draws (s : State) : s.succeed.draws = s.draws := rfl
@[simp] theorem State.raise_regs (e : CmdError) (s : State) : (s.raise e).regs = s.regs.failed e.code.code e.info e.row e.col := rfl
@[simp] theorem State.raise_pal (e : CmdError) (s : State) : (s.raise e).pal = s.pal := rfl
@[simp] theorem State.raise_pending (e : CmdError) (s : State) : (s.raise e).pending = none := rfl
@[simp] theorem State.raise_cursor (e : CmdError) (s : State) : (s.raise e).cursor = none := rfl
@[simp] theorem State.raise_rst (e : CmdError) (s : State) : (s.raise e).rst = s.rst := rfl
@[simp] theorem State.raise_inmem (e : CmdError) (s : State) : (s.raise e).inmem = s.inmem := rfl
@[simp] theorem State.raise_outmem (e : CmdError) (s : State) : (s.raise e).outmem = s.outmem := rfl
@[simp] theorem State.raise_host (e : CmdError) (s : State) : (s.raise e).host = s.host := rfl
@[simp] theorem State.raise_busData (e : CmdError) (s : State) : (s.raise e).busData = s.busData := rfl
@[simp] theorem State.raise_outData (e : CmdError) (s : State) : (s.raise e).outData = s.outData := rfl
@[simp] theorem State.raise_draws (e : CmdError) (s : State) : (s.raise e).draws = s.draws := rfl

/-! Unspecified OUTMEM bytes (R421) -/

@[simp] theorem State.scrambleOut_regs (n : Nat) (s : State) : (s.scrambleOut n).regs = s.regs := rfl
@[simp] theorem State.scrambleOut_pal (n : Nat) (s : State) : (s.scrambleOut n).pal = s.pal := rfl
@[simp] theorem State.scrambleOut_pending (n : Nat) (s : State) : (s.scrambleOut n).pending = s.pending := rfl
@[simp] theorem State.scrambleOut_cursor (n : Nat) (s : State) : (s.scrambleOut n).cursor = s.cursor := rfl
@[simp] theorem State.scrambleOut_rst (n : Nat) (s : State) : (s.scrambleOut n).rst = s.rst := rfl
@[simp] theorem State.scrambleOut_inmem (n : Nat) (s : State) : (s.scrambleOut n).inmem = s.inmem := rfl
@[simp] theorem State.scrambleOut_outmem (n : Nat) (s : State) : (s.scrambleOut n).outmem = s.outmem.fill (fun i => Config.freeByte (s.draws + i)) n := rfl
@[simp] theorem State.scrambleOut_host (n : Nat) (s : State) : (s.scrambleOut n).host = s.host := rfl
@[simp] theorem State.scrambleOut_busData (n : Nat) (s : State) : (s.scrambleOut n).busData = s.busData := rfl
@[simp] theorem State.scrambleOut_outData (n : Nat) (s : State) : (s.scrambleOut n).outData = s.outData := rfl
@[simp] theorem State.scrambleOut_draws (n : Nat) (s : State) : (s.scrambleOut n).draws = s.draws + n := rfl

/-! The block after a reset (R460) -/

@[simp] theorem State.resetBlock_regs (s : State) : s.resetBlock.regs = Regs.reset := by
  unfold State.resetBlock; split <;> rfl
@[simp] theorem State.resetBlock_pending (s : State) : s.resetBlock.pending = none := by
  unfold State.resetBlock; split <;> rfl
@[simp] theorem State.resetBlock_cursor (s : State) : s.resetBlock.cursor = none := by
  unfold State.resetBlock; split <;> rfl
@[simp] theorem State.resetBlock_rst (s : State) : s.resetBlock.rst = s.rst := by
  unfold State.resetBlock; split <;> rfl
@[simp] theorem State.resetBlock_inmem (s : State) : s.resetBlock.inmem = s.inmem := by
  unfold State.resetBlock; split <;> rfl
@[simp] theorem State.resetBlock_host (s : State) : s.resetBlock.host = s.host := by
  unfold State.resetBlock; split <;> rfl
@[simp] theorem State.resetBlock_busData (s : State) : s.resetBlock.busData = s.busData := by
  unfold State.resetBlock; split <;> rfl
@[simp] theorem State.resetBlock_outData (s : State) : s.resetBlock.outData = s.outData := by
  unfold State.resetBlock; split <;> rfl

/-! Operands (R147) and the status bit BUSY (R35) -/

theorem State.operands_of_pending {s : State} {p : Pending} (h : s.pending = some p) : s.operands = p.snap := by
  simp [State.operands, h]

theorem State.operands_of_idle {s : State} (h : s.pending = none) : s.operands = s.regs := by
  simp [State.operands, h]

@[simp] theorem State.accept_operands (w : Word) (d : Nat) (s : State) : (s.accept w d).operands = s.regs.accepted w := rfl
@[simp] theorem State.accept_busy (w : Word) (d : Nat) (s : State) : (s.accept w d).busy = true := rfl
@[simp] theorem State.succeed_busy (s : State) : s.succeed.busy = false := rfl
@[simp] theorem State.raise_busy (e : CmdError) (s : State) : (s.raise e).busy = false := rfl

/-! The fields of FMT (R55) under the mode selections -/

theorem Regs.fmtOf_order (o t : Bool) (ord : BitVec 3) : (Regs.fmtOf o t ord).extractLsb' 0 3 = ord := by
  cases o <;> cases t <;> revert ord <;> decide

theorem Regs.fmtOf_topdown (o t : Bool) (ord : BitVec 3) : (Regs.fmtOf o t ord).getLsbD 3 = t := by
  cases o <;> cases t <;> revert ord <;> decide

theorem Regs.fmtOf_outfmt (o t : Bool) (ord : BitVec 3) : (Regs.fmtOf o t ord).getLsbD 4 = o := by
  cases o <;> cases t <;> revert ord <;> decide

/-- FMT is its three fields. -/
theorem Regs.fmtOf_fields (r : Regs) : Regs.fmtOf r.outfmt r.topdown r.order = r.fmt := by
  unfold Regs.outfmt Regs.topdown Regs.order
  generalize r.fmt = f
  revert f
  decide

@[simp] theorem Regs.withOrder_order (ord : BitVec 3) (r : Regs) : (r.withOrder ord).order = ord := Regs.fmtOf_order _ _ _
@[simp] theorem Regs.withOrder_topdown (ord : BitVec 3) (r : Regs) : (r.withOrder ord).topdown = r.topdown := Regs.fmtOf_topdown _ _ _
@[simp] theorem Regs.withOrder_outfmt (ord : BitVec 3) (r : Regs) : (r.withOrder ord).outfmt = r.outfmt := Regs.fmtOf_outfmt _ _ _
@[simp] theorem Regs.withTopdown_order (b : Bool) (r : Regs) : (r.withTopdown b).order = r.order := Regs.fmtOf_order _ _ _
@[simp] theorem Regs.withTopdown_topdown (b : Bool) (r : Regs) : (r.withTopdown b).topdown = b := Regs.fmtOf_topdown _ _ _
@[simp] theorem Regs.withTopdown_outfmt (b : Bool) (r : Regs) : (r.withTopdown b).outfmt = r.outfmt := Regs.fmtOf_outfmt _ _ _
@[simp] theorem Regs.withOutfmt_order (b : Bool) (r : Regs) : (r.withOutfmt b).order = r.order := Regs.fmtOf_order _ _ _
@[simp] theorem Regs.withOutfmt_topdown (b : Bool) (r : Regs) : (r.withOutfmt b).topdown = r.topdown := Regs.fmtOf_topdown _ _ _
@[simp] theorem Regs.withOutfmt_outfmt (b : Bool) (r : Regs) : (r.withOutfmt b).outfmt = b := Regs.fmtOf_outfmt _ _ _

/-! The reset state, field by field (R460) -/

@[simp] theorem State.reset_regs : State.reset.regs = Regs.reset := rfl
@[simp] theorem State.reset_pal : State.reset.pal = List.replicate 256 ⟨0, 0, 0, 0⟩ := rfl
@[simp] theorem State.reset_pending : State.reset.pending = none := rfl
@[simp] theorem State.reset_cursor : State.reset.cursor = none := rfl
@[simp] theorem State.reset_rst : State.reset.rst = false := rfl
@[simp] theorem State.reset_inmem : State.reset.inmem = [] := rfl
@[simp] theorem State.reset_outmem : State.reset.outmem = [] := rfl
@[simp] theorem State.reset_host : State.reset.host = [] := rfl
@[simp] theorem State.reset_busData : State.reset.busData = 0 := rfl
@[simp] theorem State.reset_outData : State.reset.outData = 0 := rfl
@[simp] theorem State.reset_draws : State.reset.draws = 0 := rfl

end Sys2Proof.Machine
end

