-- ==== Sys2Proof/Laws/DecodeCommand.lean ====
section
/-! SUPPORT. Everything the command DECODE can do, and what the pixel sequence is, so that no later proof unfolds
`runDecode`, `unpackAll` or `unpackPixel`. -/

namespace Sys2Proof.Machine

/-- DECODE answers a next state, in exactly one of three ways: a check fails, a pixel fails, or it succeeds. -/
theorem runDecode_cases (o : Regs) (s : State) :
    (∃ e, decodeError o = some e ∧ runDecode o s = .next (s.raise e)) ∨
    (∃ e, decodeError o = none ∧ unpackAll o s.pal s.inmem = .error e ∧
      runDecode o s = .next ((s.scrambleOut o.need).raise e)) ∨
    (∃ pix, decodeError o = none ∧ unpackAll o s.pal s.inmem = .ok pix ∧
      runDecode o s = .next { s with outmem := if o.bpp = 0#16 then s.outmem else compose o pix s.outmem,
                                     regs := { s.regs with outCount := BitVec.ofNat 32 o.need } }.succeed) := by
  unfold runDecode
  cases hd : decodeError o with
  | some e => exact .inl ⟨e, rfl, rfl⟩
  | none =>
    cases hu : unpackAll o s.pal s.inmem with
    | error e => exact .inr (.inl ⟨e, rfl, rfl, rfl⟩)
    | ok pix => exact .inr (.inr ⟨pix, rfl, rfl, rfl⟩)

/-- The checks pass exactly when each of the seven does (R221 to R226, R228). -/
theorem decodeError_eq_none {o : Regs} :
    decodeError o = none ↔ checkFormat o = none ∧ checkCompression o = none ∧ checkDepth o = none ∧
      checkUsedMasks o = none ∧ checkOrder o = none ∧ checkOutput o = none ∧ checkInput o = none := by
  simp [decodeError, Option.or_eq_none_iff]

/-- Where the checks pass, the output fits in OUT_LEN and the pixel data lies below IN_LEN. -/
theorem extents_of_decodeError {o : Regs} (h : decodeError o = none) :
    o.need ≤ o.outLen.toNat ∧ o.pixBase.toNat + o.rowBytes * o.rowCount ≤ o.inLen.toNat := by
  obtain ⟨-, -, -, -, -, h6, h7⟩ := decodeError_eq_none.1 h
  constructor
  · by_contra hc; simp [checkOutput, Nat.lt_of_not_le hc] at h6
  · by_contra hc; simp [checkInput, checkRange, Nat.lt_of_not_le hc] at h7

/-- A lookup succeeds exactly below PAL_COUNT (R261). -/
theorem lookup_eq_ok {n : BitVec 9} {pal : List PalEntry} {i r c : Nat} {p : Word} :
    lookup n pal i r c = .ok p ↔ i < n.toNat ∧ paletteArgb pal i = p := by
  unfold lookup
  split
  · simp; omega
  · rename_i h; simp; omega

/-- A lookup's only error is IndexOutOfRange (R261). -/
theorem lookup_eq_error {n : BitVec 9} {pal : List PalEntry} {i r c : Nat} {e : CmdError} :
    lookup n pal i r c = .error e ↔ n.toNat ≤ i ∧ e = ⟨.indexOutOfRange, sat32 i, sat32 r, sat32 c⟩ := by
  unfold lookup
  split <;> rename_i h
  · simp [h, eq_comm]
  · simp [h]

/-- The fields of a MODE key (R140). -/
theorem modeKeyOf_bpp (bpp : BitVec 16) (bf : Bool) : (modeKeyOf bpp bf).extractLsb' 1 16 = bpp := by
  apply BitVec.eq_of_getLsbD_eq
  intro i hi
  simp only [modeKeyOf, BitVec.getLsbD_extractLsb', BitVec.getLsbD_append, hi, decide_true, Bool.true_and]
  rw [if_neg (by omega), show 1 + i - 1 = i by omega]

theorem modeKeyOf_bf (bpp : BitVec 16) (bf : Bool) : (modeKeyOf bpp bf).getLsbD 0 = bf := by
  simp only [modeKeyOf]
  rw [BitVec.getLsbD_append]
  simp

/-- What the key of the operands decodes to (R143), by bit depth and the bit-fields bit. -/
theorem decodeMode_modeKey (r : Regs) :
    Sys2Proof.decodeMode r.modeKey =
      if r.bpp = 0#16 then .ok (.unpack0 r.bitFields)
      else if r.bpp = 1#16 then .ok (.unpack1 r.bitFields)
      else if r.bpp = 4#16 then .ok (.unpack4 r.bitFields)
      else if r.bpp = 8#16 then .ok (.unpack8 r.bitFields)
      else if r.bpp = 16#16 then .ok (if r.bitFields then .unpack16bf else .unpack16x555)
      else if r.bpp = 24#16 then .ok (.unpack24 r.bitFields)
      else if r.bpp = 32#16 then .ok (if r.bitFields then .unpack32bf else .unpack32rgb)
      else .error (.unsupportedBitDepth r.bpp) := by
  simp only [Sys2Proof.decodeMode, Regs.modeKey, modeKeyOf_bpp, modeKeyOf_bf]

section Paths
variable {o : Regs} {pal : List PalEntry} {m : Memory} {sr c : Nat}

/-- The unpack path of each depth (R326 to R333). -/
theorem unpackPixel_1 (h : o.bpp = 1#16) : unpackPixel o pal m sr c = unpackPixel1 o pal m sr c := by
  simp [unpackPixel, decodeMode_modeKey, h]

theorem unpackPixel_4 (h : o.bpp = 4#16) : unpackPixel o pal m sr c = unpackPixel4 o pal m sr c := by
  simp [unpackPixel, decodeMode_modeKey, h]

theorem unpackPixel_8 (h : o.bpp = 8#16) : unpackPixel o pal m sr c = unpackPixel8 o pal m sr c := by
  simp [unpackPixel, decodeMode_modeKey, h]

theorem unpackPixel_16 (h : o.bpp = 16#16) : unpackPixel o pal m sr c =
    .ok (if o.bitFields then unpackPixel16bf o m sr c else unpackPixel16x555 o m sr c) := by
  cases hb : o.bitFields <;> simp [unpackPixel, decodeMode_modeKey, h, hb]

theorem unpackPixel_24 (h : o.bpp = 24#16) : unpackPixel o pal m sr c = .ok (unpackPixel24 o m sr c) := by
  simp [unpackPixel, decodeMode_modeKey, h]

theorem unpackPixel_32 (h : o.bpp = 32#16) : unpackPixel o pal m sr c =
    .ok (if o.bitFields then unpackPixel32bf o m sr c else unpackPixel32rgb o m sr c) := by
  cases hb : o.bitFields <;> simp [unpackPixel, decodeMode_modeKey, h, hb]

/-- A pixel fails only with a bad index, or at a depth that validation rejects. -/
theorem unpackPixel_error {e : CmdError} (h : unpackPixel o pal m sr c = .error e) :
    (∃ i, e = ⟨.indexOutOfRange, sat32 i, sat32 sr, sat32 c⟩) ∨ e = ⟨.unsupportedBitDepth, o.bpp.setWidth 32, 0, 0⟩ := by
  unfold unpackPixel at h
  split at h
  · exact .inl ⟨_, (lookup_eq_error.1 h).2⟩
  · exact .inl ⟨_, (lookup_eq_error.1 h).2⟩
  · exact .inl ⟨_, (lookup_eq_error.1 h).2⟩
  all_goals first | cases h; done | exact .inr (by simpa using h.symm)

/-- Where the pixel sequence exists, every pixel of every stored row is its pixel. -/
theorem unpackPixel_of_unpackAll {pix : List (List Word)} (h : unpackAll o pal m = .ok pix) (h0 : o.bpp ≠ 0#16)
    (hr : sr < o.rowCount) (hc : c < o.paddedWidth) : unpackPixel o pal m sr c = .ok (pixelAt pix sr c) := by
  simp only [unpackAll, h0, if_false] at h
  obtain ⟨hl, hf⟩ := collect_eq_ok.1 h
  have hsr : sr < pix.length := by omega
  obtain ⟨hl', hf'⟩ := collect_eq_ok.1 (hf sr hsr)
  have hcc : c < pix[sr].length := by omega
  have := hf' c hcc
  rw [this]
  simp [pixelAt, List.getD_eq_getElem?_getD, List.getElem?_eq_getElem hsr, List.getElem?_eq_getElem hcc]

/-- Where every pixel unpacks, the pixel sequence exists. -/
theorem unpackAll_of_pixels (h : ∀ r < o.rowCount, ∀ k < o.paddedWidth, ∃ p, unpackPixel o pal m r k = .ok p) :
    ∃ pix, unpackAll o pal m = .ok pix := by
  unfold unpackAll
  split
  · exact ⟨[], rfl⟩
  · rcases hc : collect (unpackRow o pal m) o.rowCount with e | pix
    · obtain ⟨r, hr, he, -⟩ := collect_error hc
      obtain ⟨k, hk, he', -⟩ := collect_error he
      obtain ⟨p, hp⟩ := h r hr k hk
      simp [hp] at he'
    · exact ⟨pix, rfl⟩

/-- The pixel sequence fails exactly with the error of the first failing pixel in storage order (R323). -/
theorem unpackAll_eq_error {e : CmdError} (h0 : o.bpp ≠ 0#16) :
    unpackAll o pal m = .error e ↔ ∃ r < o.rowCount, ∃ k < o.paddedWidth, unpackPixel o pal m r k = .error e ∧
      ∀ r' < o.rowCount, ∀ k' < o.paddedWidth, (r' < r ∨ r' = r ∧ k' < k) →
        ∃ p, unpackPixel o pal m r' k' = .ok p := by
  simp only [unpackAll, h0, if_false]
  constructor
  · intro h
    obtain ⟨r, hr, he, hlow⟩ := collect_error h
    obtain ⟨k, hk, he', hlow'⟩ := collect_error he
    refine ⟨r, hr, k, hk, he', fun r' hr' k' hk' hlt => ?_⟩
    rcases hlt with hlt | ⟨rfl, hlt⟩
    · obtain ⟨row, hrow⟩ := hlow r' hlt
      obtain ⟨hl, hf⟩ := collect_eq_ok.1 hrow
      exact ⟨_, hf k' (by omega)⟩
    · exact hlow' k' hlt
  · rintro ⟨r, hr, k, hk, he, hlow⟩
    refine collect_eq_error.2 ⟨r, hr, collect_eq_error.2 ⟨k, hk, he, fun k' hk' => ?_⟩, fun r' hr' => ?_⟩
    · exact hlow r hr k' (by omega) (.inr ⟨rfl, hk'⟩)
    · rcases hc : unpackRow o pal m r' with e' | row
      · obtain ⟨k', hk', he', -⟩ := collect_error hc
        obtain ⟨p, hp⟩ := hlow r' (by omega) k' hk' (.inl hr')
        simp [hp] at he'
      · exact ⟨row, rfl⟩

end Paths

/-- Where DECODE's checks pass and a pixel fails, the error is IndexOutOfRange. -/
theorem unpackAll_error_code {o : Regs} {pal : List PalEntry} {m : Memory} {e : CmdError}
    (hd : decodeError o = none) (h : unpackAll o pal m = .error e) : e.code = .indexOutOfRange := by
  have h0 : o.bpp ≠ 0#16 := by rintro h0; simp [unpackAll, h0] at h
  obtain ⟨r, -, k, -, he, -⟩ := (unpackAll_eq_error h0).1 h
  rcases unpackPixel_error he with ⟨i, rfl⟩ | rfl
  · rfl
  · exfalso
    have hl : legalDepth o.bpp = true := by
      have := (decodeError_eq_none.1 hd).2.2.1
      unfold checkDepth at this
      split at this
      · assumption
      · cases this
    have hcases : o.bpp = 0#16 ∨ o.bpp = 1#16 ∨ o.bpp = 4#16 ∨ o.bpp = 8#16 ∨ o.bpp = 16#16 ∨ o.bpp = 24#16 ∨ o.bpp = 32#16 := by
      simpa [legalDepth] using hl
    rcases hcases with h | h | h | h | h | h | h
    · exact h0 h
    · rw [unpackPixel_1 h] at he; have := (lookup_eq_error.1 he).2; simp at this
    · rw [unpackPixel_4 h] at he; have := (lookup_eq_error.1 he).2; simp at this
    · rw [unpackPixel_8 h] at he; have := (lookup_eq_error.1 he).2; simp at this
    · rw [unpackPixel_16 h] at he; cases he
    · rw [unpackPixel_24 h] at he; cases he
    · rw [unpackPixel_32 h] at he; cases he

/-- A raised check of DECODE has a code that the block produces, never IndexOutOfRange. -/
theorem decodeError_code {o : Regs} {e : CmdError} (h : decodeError o = some e) :
    e.code ≠ .malformedHeader ∧ e.code ≠ .indexOutOfRange := by
  simp only [decodeError, Option.or_eq_some_iff] at h
  have masks : ∀ e, checkUsedMasks o = some e → e.code = .invalidColorMask := by
    intro e h
    unfold checkUsedMasks at h
    split at h
    · simp only [checkMasks, Option.or_eq_some_iff, checkMask] at h
      rcases h with (h | ⟨-, h⟩) | ⟨-, h⟩ <;> (split at h <;> simp_all) <;> subst h <;> rfl
    · cases h
  rcases h with h | ⟨-, h | ⟨-, h | ⟨-, h | ⟨-, h | ⟨-, h | ⟨-, h⟩⟩⟩⟩⟩⟩
  · unfold checkFormat at h; split at h
    · cases h; simp
    · split at h <;> cases h; simp
  · unfold checkCompression at h; split at h <;> cases h; simp
  · unfold checkDepth at h; split at h <;> cases h; simp
  · simp [masks e h]
  · unfold checkOrder at h; split at h <;> cases h; simp
  · unfold checkOutput at h; split at h <;> cases h; simp
  · unfold checkInput checkRange at h; split at h <;> cases h; simp

end Sys2Proof.Machine
end

