-- ==== Sys2Proof/Laws/Exec.lean ====
section
/-! SUPPORT. Everything the completion step of an instruction can do, said once. -/

namespace Sys2Proof.Machine

open Sys2Proof.Spec

/-- A decode-family instruction is DECODE on the operands it selects (R143 to R146). -/
theorem exec_selected {i : Instr} {s : State} {o : Regs} (h : selected i s.operands = some o) :
    exec i s = runDecode o s := by
  cases i <;> simp only [selected, Option.some.injEq, reduceCtorEq] at h <;> subst h <;> rfl

/-- The operands a decode-family instruction selects differ from the command's in BPP, COMPRESSION and FMT only. -/
theorem selected_keeps {i : Instr} {r o : Regs} (h : selected i r = some o) :
    o.outLen = r.outLen ∧ o.inLen = r.inLen ∧ o.pixBase = r.pixBase ∧ o.palCount = r.palCount ∧ o.width = r.width ∧
      o.height = r.height := by
  cases i <;> simp only [selected, Option.some.injEq, reduceCtorEq] at h <;> subst h <;> exact ⟨rfl, rfl, rfl, rfl, rfl, rfl⟩

/-- The state in which PAL_LOAD raises: the palette emptied (R254). -/
abbrev palEmptied (s : State) : State :=
  { s with regs := { s.regs with palCount := 0 }, pal := freeEntries Config.palMax s.draws, draws := s.draws + Config.palMax }

/-- The state in which PAL_LOAD succeeds with `n` entries at `a` (R251). -/
abbrev palLoaded (n a : Nat) (s : State) : State :=
  { s with
      regs := { s.regs with palCount := BitVec.ofNat 9 n },
      pal := (List.range n).map (entryAt s.inmem a) ++ freeEntries (Config.palMax - n) s.draws,
      draws := s.draws + Config.palMax }

/-- The ways an instruction can complete (R201): what it changed, and why it was allowed to. -/
inductive Completes (i : Instr) (s : State) : State → Prop
  | nop (h : i = .nop) : Completes i s s.succeed
  | fail (e : CmdError) (hc : e.code ≠ .malformedHeader) (hx : e.code ≠ .indexOutOfRange ∨ i = .palLookup)
      (hp : i ≠ .palLoad) : Completes i s (s.raise e)
  | palFail (e : CmdError) (hc : e.code ≠ .malformedHeader) (hx : e.code ≠ .indexOutOfRange) (hi : i = .palLoad) :
      Completes i s ((palEmptied s).raise e)
  | palOk (hi : i = .palLoad) (hn : s.operands.palLen.toNat / 4 ≤ 256) :
      Completes i s (palLoaded (s.operands.palLen.toNat / 4) s.operands.palBase.toNat s).succeed
  | mask (hi : i = .maskLoad) (a b c : Word) :
      Completes i s ({ s with regs := { s.regs with rmask := a, gmask := b, bmask := c } } : State).succeed
  | result (hi : i = .bfx ∨ i = .palLookup) (v : Word) :
      Completes i s ({ s with regs := { s.regs with result := v } } : State).succeed
  | badIndex (o : Regs) (h : selected i s.operands = some o) (e : CmdError) (he : e.code = .indexOutOfRange)
      (hn : o.need ≤ o.outLen.toNat) : Completes i s ((s.scrambleOut o.need).raise e)
  | composed (o : Regs) (h : selected i s.operands = some o) (m : Memory) (hn : o.need ≤ o.outLen.toNat)
      (hm : s.outmem.wf → m.wf) (hr : ∀ a, o.need ≤ a → m.read a = s.outmem.read a) :
      Completes i s ({ s with outmem := m, regs := { s.regs with outCount := BitVec.ofNat 32 o.need } } : State).succeed

/-- The bounds check raises only TruncatedInput, with the end of the range (R104). -/
theorem checkRange_code {a n l e} (h : checkRange a n l = some e) : e = ⟨.truncatedInput, sat32 (a+n), 0, 0⟩ := by
  unfold checkRange at h; split at h <;> cases h; rfl

/-- DECODE completes in one of its three ways. -/
theorem runDecode_completes {i s o} (h : selected i s.operands = some o) : ∃ t, runDecode o s = .next t ∧ Completes i s t := by
  have hi : i ≠ .palLoad ∧ i ≠ .palLookup := by constructor <;> (rintro rfl; simp [selected] at h)
  rcases runDecode_cases o s with ⟨e, he, ht⟩ | ⟨e, hd, hu, ht⟩ | ⟨pix, hd, hu, ht⟩
  · exact ⟨_, ht, .fail e (decodeError_code he).1 (.inl (decodeError_code he).2) hi.1⟩
  · exact ⟨_, ht, .badIndex o h e (unpackAll_error_code hd hu) (extents_of_decodeError hd).1⟩
  · have hx := (extents_of_decodeError hd).1
    refine ⟨_, ht, .composed o h _ hx ?_ ?_⟩
    · intro hm
      split
      · exact hm
      · rename_i h0
        apply wf_compose hm
        simp only [Regs.need, h0, if_false] at hx
        have := o.outLen.isLt
        simp only [Config.memTop]; omega
    · intro a ha
      split
      · rfl
      · rename_i h0
        rw [read_compose, if_neg]
        simp only [Regs.need, h0, if_false] at ha; omega

/-- Every instruction answers a next state, in one of the ways of `Completes`. -/
theorem exec_completes (i : Instr) (s : State) : ∃ t, exec i s = .next t ∧ Completes i s t := by
  rcases hsel : selected i s.operands with - | o
  · cases i <;> simp only [selected, reduceCtorEq] at hsel
    · exact ⟨_, rfl, .nop rfl⟩
    · simp only [exec, execPalLoad]
      cases hp : palLoadError s.operands s.inmem with
      | some e =>
        refine ⟨_, rfl, .palFail e ?_ ?_ rfl⟩ <;>
        · simp only [palLoadError] at hp
          split at hp
          · rename_i h; cases hp; rw [checkRange_code h]; simp
          · split at hp
            · cases hp; simp
            · split at hp <;> cases hp; simp
      | none =>
        refine ⟨_, rfl, .palOk rfl ?_⟩
        simp only [palLoadError] at hp
        split at hp
        · cases hp
        · split at hp
          · cases hp
          · split at hp
            · cases hp
            · rename_i h; simpa [Config.palMax] using h
    · simp only [exec, execMaskLoad]
      cases hp : checkRange s.operands.maskBase.toNat 12 s.operands.inLen with
      | some e => exact ⟨_, rfl, .fail e (by rw [checkRange_code hp]; simp) (by rw [checkRange_code hp]; simp) (by simp)⟩
      | none => exact ⟨_, rfl, .mask rfl _ _ _⟩
    · simp only [exec, execBfx]
      cases hp : checkMasks s.operands with
      | some e =>
        have : e.code = .invalidColorMask := by
          simp only [checkMasks, Option.or_eq_some_iff, checkMask] at hp
          rcases hp with (h | ⟨-, h⟩) | ⟨-, h⟩ <;> (split at h <;> cases h; rfl)
        exact ⟨_, rfl, .fail e (by simp [this]) (by simp [this]) (by simp)⟩
      | none => exact ⟨_, rfl, .result (.inl rfl) _⟩
    · simp only [exec, execPalLookup]
      cases hp : lookup s.operands.palCount s.pal s.operands.arg.toNat 0 0 with
      | error e => exact ⟨_, rfl, .fail e (by rw [(lookup_eq_error.1 hp).2]; simp) (.inr rfl) (by simp)⟩
      | ok p => exact ⟨_, rfl, .result (.inr rfl) _⟩
    · exact ⟨_, rfl, .fail _ (by simp) (by simp) (by simp)⟩
  · rw [exec_selected hsel]
    exact runDecode_completes hsel

/-- The codes the block produces (R410, R412). -/
theorem code_produced {c : ErrCode} (h : c ≠ .malformedHeader) : 2 ≤ c.code.toNat ∧ c.code.toNat ≤ 12 := by
  cases c <;> simp_all [ErrCode.code]

theorem code_ne_zero {c : ErrCode} : c.code ≠ 0#4 := by cases c <;> simp [ErrCode.code]

end Sys2Proof.Machine
end

