-- ==== Sys2Proof/Laws/Bus.lean ====
section
/-! SUPPORT. Everything an operation of the host can do, said once, and the conditions of its refusals in the words of the
spec. -/

namespace Sys2Proof.Machine

open Sys2Proof.Spec

/-- The register file is decoded by its own offsets (R32). -/
@[simp] theorem target_offset (r : Reg) : target r.offset = .reg r := by cases r <;> decide

/-- A PALWIN name stands at its entry (R32, R42). -/
theorem target_palwin (i : Fin 256) : target (RegName.offset (.palwin i)) = .palwin i.val := by
  have hi := i.isLt
  have hn : (BitVec.ofNat 32 (0x400 + 4 * i.val)).toNat = 0x400 + 4 * i.val := by
    simp only [BitVec.toNat_ofNat]; omega
  have hf : Reg.all.find? (fun r => r.offset == BitVec.ofNat 32 (0x400 + 4 * i.val)) = none := by
    rw [List.find?_eq_none]
    intro r _ hc
    have hlow : ∀ r : Reg, r.offset.toNat < 0x400 := by intro r; cases r <;> decide
    have := hlow r
    rw [eq_of_beq hc, hn] at this
    omega
  rw [RegName.offset, target, hf, hn]
  simp only
  rw [if_pos (by omega)]
  congr 1; omega

/-- The host is about to assert `rst` exactly where that operation is at the head of its list. -/
theorem State.resetNext_iff {s : State} : s.resetNext = true ↔ ∃ rest, s.host = .rst true :: rest := by
  unfold State.resetNext
  split
  · rename_i rest h; exact ⟨fun _ => ⟨rest, h⟩, fun _ => rfl⟩
  · rename_i h; exact ⟨nofun, fun ⟨rest, hr⟩ => (h rest hr).elim⟩

/-- An MMIO read draws a free word or only returns data (R110). -/
theorem State.mmioRead_cases (off : Word) (s : State) :
    s.mmioRead off = s.readFree ∨ ∃ d, s.mmioRead off = { s with busData := d } := by
  unfold State.mmioRead
  split
  · exact .inl rfl
  · split
    · exact .inr ⟨_, rfl⟩
    · split
      · exact .inr ⟨_, rfl⟩
      · exact .inl rfl
    · exact .inr ⟨_, rfl⟩

/-- A run unrolls at its front. -/
theorem run_next (M : Host.Core) (k : Nat) {s t : M.State} (h : M.step s = .next t) : M.run (k + 1) s = M.run k t := by
  simp [Host.Core.run, h]

theorem run_one (M : Host.Core) (s : M.State) : M.run 1 s = M.step s := by
  cases h : M.step s <;> simp [Host.Core.run, h]

/-- The ways a host operation goes on: what it changed, and when it may. -/
inductive HostDoes (s : State) : State → Prop
  /-- data came back, a free word may have been drawn, and the host's list may have changed -/
  | read (d : Word) (n : Nat) (host : List HostOp) : HostDoes s { s with busData := d, draws := n, host := host }
  | accept (v : Word) (hr : s.rst = false) (hb : s.pending = none) :
      HostDoes s { s.accept v (Config.latency s.draws) with draws := s.draws + 1 }
  | write (r : Reg) (v : Word) (hr : s.rst = false) (hb : s.pending = none) :
      HostDoes s { s with regs := s.regs.write v r }
  | inb (a : Nat) (b : Byte) (ha : a < Config.memTop) : HostDoes s { s with inmem := s.inmem.write a b }
  | outb (b : Byte) (n : Nat) : HostDoes s { s with outData := b, draws := n }
  | reset : HostDoes s { s.resetBlock with rst := true }
  | release : HostDoes s { s with rst := false }

/-- An MMIO write is ignored, is an acceptance, or stores to a register while the block is idle. -/
theorem State.mmioWrite_does (off v : Word) (s : State) : HostDoes s (s.mmioWrite off v) := by
  unfold State.mmioWrite
  split
  · exact .read s.busData s.draws s.host
  · rename_i h
    simp only [State.busy, Bool.or_eq_true, not_or, Bool.not_eq_true, Option.isSome_eq_false_iff,
      Option.isNone_iff_eq_none] at h
    split
    · exact .accept v h.1 h.2
    · exact .write _ v h.1 h.2
    · exact .read s.busData s.draws s.host
    · exact .read s.busData s.draws s.host

/-- Everything a host operation that goes on can do. -/
theorem State.hostOp_does {s t : State} {op : HostOp} (h : s.hostOp op = .next t) : HostDoes s t := by
  have got : ∀ (off : Word) (host : List HostOp), HostDoes s { s.mmioRead off with host := host } := by
    intro off host
    rcases s.mmioRead_cases off with e | ⟨d, e⟩ <;> rw [e]
    · exact .read _ _ _
    · exact .read _ s.draws _
  cases op <;> simp only [State.hostOp] at h
  case wr off size v =>
    unfold State.hostWrite at h
    split at h
    · split at h <;> cases h
      exact s.mmioWrite_does off v
    · cases h
  case rd off size =>
    split at h <;> cases h
    exact got off (s.mmioRead off).host
  case inb a b =>
    unfold State.hostWriteIn at h
    split at h
    · cases h
    · split at h <;> cases h
      have := a.isLt
      exact .inb _ _ (by simp only [Config.memTop] at *; omega)
  case outb a =>
    unfold State.hostReadOut at h
    split at h
    · cases h
    · split at h <;> cases h
      · exact .outb _ _
      · exact .outb _ s.draws
  case rst level =>
    cases h
    cases level
    · exact .release
    · exact .reset
  case wait =>
    cases h
    split
    · exact got Reg.status.offset _
    · exact got Reg.status.offset (s.mmioRead Reg.status.offset).host
  case stopOnErr =>
    cases h
    split
    · exact .read s.busData s.draws _
    · exact .read s.busData s.draws s.host
  case outbCount => cases h; exact got Reg.outCount.offset _
  case idle => cases h; exact .read s.busData s.draws s.host

/-- The checks of DECODE pass exactly on admitted operands. -/
theorem decodeError_eq_none_iff {o : Regs} : decodeError o = none ↔ Admitted o := by
  rw [decodeError_eq_none]
  have h1 : checkFormat o = none ↔
      ¬(o.heightInt < 0 ∧ ¬(o.compression = 0#32 ∨ o.compression = 3#32)) ∧ 0 ≤ o.widthInt := by
    unfold checkFormat; split_ifs <;> simp_all
  have h2 : checkCompression o = none ↔ (o.compression = 0#32 ∨ o.compression = 3#32) := by
    unfold checkCompression; split_ifs <;> simp_all
  have h3 : checkDepth o = none ↔ o.bpp ∈ [0#16, 1#16, 4#16, 8#16, 16#16, 24#16, 32#16] := by
    unfold checkDepth legalDepth; rw [← List.contains_iff_mem]; split_ifs <;> simp_all
  have h4 : checkUsedMasks o = none ↔
      (o.usesMasks = true → contiguous o.rmask = true ∧ contiguous o.gmask = true ∧ contiguous o.bmask = true) := by
    unfold checkUsedMasks checkMasks checkMask; split_ifs <;> simp_all
  have h5 : checkOrder o = none ↔ o.order.toNat ≤ 3 := by unfold checkOrder; split_ifs <;> simp_all
  have h6 : checkOutput o = none ↔ o.need ≤ o.outLen.toNat := by unfold checkOutput; split_ifs <;> simp_all
  have h7 : checkInput o = none ↔ o.pixBase.toNat + o.rowBytes * o.rowCount ≤ o.inLen.toNat := by
    unfold checkInput checkRange; split_ifs <;> simp_all
  rw [h1, h2, h3, h4, h5, h6, h7, Admitted]
  constructor
  · rintro ⟨⟨_, hw⟩, hc, rest⟩; exact ⟨hc, hw, rest⟩
  · rintro ⟨hc, hw, rest⟩; exact ⟨⟨fun h => h.2 hc, hw⟩, hc, rest⟩

/-- The overlap that R478 refuses, in the spec's words. -/
theorem memoryOverlap_iff {o : Regs} :
    memoryOverlap Config.sharedMemory Config.inSysBase Config.outSysBase o = true ↔ Overlapping o := by
  unfold memoryOverlap
  simp only [Bool.and_eq_true, decide_eq_true_eq, Option.isNone_iff_eq_none, decodeError_eq_none_iff]
  unfold Overlapping
  tauto

/-- The bytes that the hazard of R476 covers, in the spec's words. -/
theorem State.readsByte_iff {s : State} {a : Nat} :
    s.readsByte a = true ↔ ∃ p, s.pending = some p ∧ ReadsInmem p.word p.snap a := by
  unfold State.readsByte State.commandReads
  cases hp : s.pending with
  | none => simp
  | some p =>
    have fits : ∀ {b n : Nat}, (checkRange b n p.snap.inLen).isNone = true ↔ b + n ≤ p.snap.inLen.toNat := by
      intro b n; unfold checkRange; split_ifs <;> simp_all
    simp only [Option.some.injEq, exists_eq_left']
    by_cases h1 : p.word = 1#32
    · by_cases hf : p.snap.palBase.toNat + p.snap.palLen.toNat ≤ p.snap.inLen.toNat <;>
        simp [h1, Sys2Proof.decodeCmd, ReadsInmem, fits, hf]
    by_cases h2 : p.word = 2#32
    · by_cases hf : p.snap.maskBase.toNat + 12 ≤ p.snap.inLen.toNat <;>
        simp [h2, Sys2Proof.decodeCmd, ReadsInmem, fits, hf]
    by_cases h5 : p.word = 5#32
    · by_cases hf : decodeError p.snap = none
      · have ha : Admitted p.snap := decodeError_eq_none_iff.1 hf
        simp only [h5, Sys2Proof.decodeCmd, ReadsInmem, hf]
        simp only [eq_true ha]; simp
      · have hn : ¬Admitted p.snap := mt decodeError_eq_none_iff.2 hf
        simp only [h5, Sys2Proof.decodeCmd, ReadsInmem, hn]; simp [hf]
    · simp only [ReadsInmem, h1, h2, h5, Sys2Proof.decodeCmd]
      by_cases h0 : p.word = 0#32 <;> by_cases h3 : p.word = 3#32 <;> by_cases h4 : p.word = 4#32 <;> simp [h0, h3, h4]

end Sys2Proof.Machine
end

