-- ==== Sys2Proof/Laws/PerInstr.lean ====
section
/-! SUPPORT. Statements about every instruction as syntax, one lemma per constructor. -/

namespace Sys2Proof.Laws.EncodedInField

/-- The encoded word sets no bit outside its format's field (R140). -/
def Statement (i : Instr) : Prop := (encode i).word &&& ~~~ (encode i).format.field = 0#32

/-- A full-word field has nothing outside it. -/
theorem full (w : Word) : w &&& ~~~ 0xFFFFFFFF#32 = 0#32 := by simp

theorem nop : Statement .nop := by unfold Statement; decide

theorem palLoad : Statement .palLoad := by unfold Statement; decide

theorem maskLoad : Statement .maskLoad := by unfold Statement; decide

theorem bfx : Statement .bfx := by unfold Statement; decide

theorem palLookup : Statement .palLookup := by unfold Statement; decide

theorem decode : Statement .decode := by unfold Statement; decide

theorem illegal (w : Word) : Statement (.illegal w) := full w

theorem unpack0 (bf : Bool) : Statement (.unpack0 bf) := by
  unfold Statement
  cases bf <;> decide

theorem unpack1 (bf : Bool) : Statement (.unpack1 bf) := by
  unfold Statement
  cases bf <;> decide

theorem unpack4 (bf : Bool) : Statement (.unpack4 bf) := by
  unfold Statement
  cases bf <;> decide

theorem unpack8 (bf : Bool) : Statement (.unpack8 bf) := by
  unfold Statement
  cases bf <;> decide

theorem unpack16x555 : Statement .unpack16x555 := by unfold Statement; decide

theorem unpack16bf : Statement .unpack16bf := by unfold Statement; decide

theorem unpack24 (bf : Bool) : Statement (.unpack24 bf) := by
  unfold Statement
  cases bf <;> decide

theorem unpack32rgb : Statement .unpack32rgb := by unfold Statement; decide

theorem unpack32bf : Statement .unpack32bf := by unfold Statement; decide

theorem rejectRle8 : Statement .rejectRle8 := by unfold Statement; decide

theorem rejectRle4 : Statement .rejectRle4 := by unfold Statement; decide

theorem rejectJpeg : Statement .rejectJpeg := by unfold Statement; decide

theorem rejectPng : Statement .rejectPng := by unfold Statement; decide

theorem rejectOther (comp : Word) : Statement (.rejectOther comp) := full comp

theorem orderRgba : Statement .orderRgba := by unfold Statement; decide

theorem orderBgra : Statement .orderBgra := by unfold Statement; decide

theorem orderArgb : Statement .orderArgb := by unfold Statement; decide

theorem orderAbgr : Statement .orderAbgr := by unfold Statement; decide

theorem orderInvalid (ord : BitVec 3) : Statement (.orderInvalid ord) := by
  unfold Statement
  revert ord
  decide

theorem orientTopdown : Statement .orientTopdown := by unfold Statement; decide

theorem orientBottomup : Statement .orientBottomup := by unfold Statement; decide

theorem outBytes : Statement .outBytes := by unfold Statement; decide

theorem outWords : Statement .outWords := by unfold Statement; decide

end Sys2Proof.Laws.EncodedInField
end

