-- ==== Sys2Proof/Tests/Slice0.lean ====
section
/-! SUPPORT. The model's own tests. Every expected value is copied from the spec's tables and worked examples
(`95_test_vectors.md`, named V-L1-n and L2.n below, or the rule cited), never from the model. -/

namespace Sys2Proof.Tests

open Sys2Proof.Machine Sys2Proof.Spec

/-! ## Helpers -/

/-- A memory holding the given bytes from address `a` on. -/
def bytesAt (a : Nat) : List Byte → Memory
  | [] => []
  | b :: bs => (bytesAt (a + 1) bs).write a b

/-- The palettes BW and Q4 of `95_test_vectors.md`. -/
def bw : List PalEntry := [⟨0, 0, 0, 0⟩, ⟨255, 255, 255, 0⟩]
def q4 : List PalEntry := [⟨0, 0, 0, 0⟩, ⟨255, 0, 0, 0⟩, ⟨0, 255, 0, 0⟩, ⟨0, 0, 255, 0⟩]

/-- An idle machine with given registers, INMEM and palette. -/
def machine (r : Regs) (m : Memory) (pal : List PalEntry) : State :=
  { State.reset with regs := r, inmem := m, pal := pal }

/-- The registers of an image, its pixel data at INMEM 0, IN_LEN and OUT_LEN large enough. -/
def imageRegs (w h : Word) (bpp : BitVec 16) (comp : Word) (fmt : BitVec 5) : Regs :=
  { Regs.reset with width := w, height := h, bpp := bpp, compression := comp, fmt := fmt, inLen := 100, outLen := 100 }

/-- The same with the three masks. -/
def maskedRegs (r : Regs) (mr mg mb : Word) : Regs := { r with rmask := mr, gmask := mg, bmask := mb }

/-- A field of the next state. -/
def after {α : Type} (o : Host.Outcome State Fault Refusal) (f : State → α) : Option α :=
  match o with
  | .next s => some (f s)
  | _ => none

/-- OUTMEM bytes 0 .. n-1. -/
def out (n : Nat) (s : State) : List Byte := (List.range n).map s.outmem.read

/-- STATUS, ERRCODE and ERRINFO. -/
def report (s : State) : Word × Word × Word := (s.readReg .status, s.readReg .errcode, s.readReg .errinfo)

/-! ## Well-formedness: what the check refuses, and the first value it takes -/

theorem test_wf_refuses_illegal_5 : (Instr.illegal 5).wf = false ∧ (Instr.illegal 6).wf = true := by decide
theorem test_wf_refuses_rejectOther_5 : (Instr.rejectOther 5).wf = false ∧ (Instr.rejectOther 6).wf = true := by decide
theorem test_wf_refuses_orderInvalid_3 : (Instr.orderInvalid 3).wf = false ∧ (Instr.orderInvalid 4).wf = true := by decide

/-! ## Decoding: words written out from the tables of `30_encoding.md` -/

theorem test_decode_commands :
    (List.map (fun w : Word => Sys2Proof.decode ⟨.cmd, w⟩) [0, 1, 2, 3, 4, 5, 6, 0xFFFFFFFF]) =
      [.ok .nop, .ok .palLoad, .ok .maskLoad, .ok .bfx, .ok .palLookup, .ok .decode, .ok (.illegal 6),
        .ok (.illegal 0xFFFFFFFF)] := by decide

/-- BPP in bits 16:1, BF in bit 0 (R140, R143). -/
theorem test_decode_modes :
    (List.map (fun w : Word => Sys2Proof.decode ⟨.mode, w⟩)
      [0b00000000000000000, 0b00000000000000011, 0b00000000000001000, 0b00000000000010000, 0b00000000000100000,
        0b00000000000100001, 0b00000000000110001, 0b00000000001000000, 0b00000000001000001, 0b00000000000000100]) =
      [.ok (.unpack0 false), .ok (.unpack1 true), .ok (.unpack4 false), .ok (.unpack8 false), .ok .unpack16x555,
        .ok .unpack16bf, .ok (.unpack24 true), .ok .unpack32rgb, .ok .unpack32bf, .error (.unsupportedBitDepth 2)] := by
  decide

theorem test_decode_compressions :
    (List.map (fun w : Word => Sys2Proof.decode ⟨.comp, w⟩) [1, 2, 4, 5, 6, 0xFFFFFFFF, 0, 3]) =
      [.ok .rejectRle8, .ok .rejectRle4, .ok .rejectJpeg, .ok .rejectPng, .ok (.rejectOther 6),
        .ok (.rejectOther 0xFFFFFFFF), .error (.compressionDecoded 0), .error (.compressionDecoded 3)] := by decide

theorem test_decode_orders :
    (List.map (fun w : Word => Sys2Proof.decode ⟨.order, w⟩) [0, 1, 2, 3, 4, 5, 6, 7]) =
      [.ok .orderRgba, .ok .orderBgra, .ok .orderArgb, .ok .orderAbgr, .ok (.orderInvalid 4), .ok (.orderInvalid 5),
        .ok (.orderInvalid 6), .ok (.orderInvalid 7)] := by decide

theorem test_decode_format_bits :
    Sys2Proof.decode ⟨.topdown, 0b01000⟩ = .ok .orientTopdown ∧ Sys2Proof.decode ⟨.topdown, 0⟩ = .ok .orientBottomup ∧
    Sys2Proof.decode ⟨.outfmt, 0b10000⟩ = .ok .outWords ∧ Sys2Proof.decode ⟨.outfmt, 0⟩ = .ok .outBytes := by decide

/-- A bit outside the field, a wrong number of bytes, and a MODE key in its three bytes. -/
theorem test_decode_rejects :
    Sys2Proof.decode ⟨.order, 8⟩ = .error (.outsideField 8) ∧ decodeBytes .cmd [5, 0, 0] = .error (.wrongLength 3) ∧
    decodeBytes .mode [0x41, 0, 0] = .ok .unpack32bf := by decide

/-- R150 (the letter case is log 32). -/
theorem test_disassembly :
    disassembleCmd 2 = "MASK_LOAD" ∧ disassembleCmd 0xA06 = "ILLEGAL 0x00000A06" ∧
    disassembleMode 0x21 0x1A = some "DECODE UNPACK.16.BF ORDER.ARGB ORIENT.TOPDOWN OUT.WORDS" := by decide

/-! ## The table's words, and the first instruction after reset -/

theorem test_table_words :
    decodeTableWord 32 5 = some .decode ∧ decodeTableWord 24 0x21 = some .unpack16bf ∧
    decodeTableWord 8 1 = some .orderBgra ∧ decodeTableWord 8 8 = some .orientTopdown ∧
    decodeTableWord 8 16 = some .outWords := by decide

/-- R463: a DECODE straight after reset completes with STATUS = 0b010; R206: word 6 is illegal. -/
theorem test_first_instruction :
    after (step (State.reset.withFetchWord 32 5)) report = some (0b010, 0, 0) ∧
    after (step (State.reset.withFetchWord 32 6)) report = some (0b110, 12, 6) := by decide

/-! ## The sequencer -/

/-- L2.1, second line: NOP clears a recorded error. -/
theorem test_nop :
    after (exec .nop ((machine { Regs.reset with done := true, err := true, errcode := 4, errinfo := 9 } [] []).accept 0 0))
      report = some (0b010, 0, 0) := by decide

/-- L2.1, fourth line. -/
theorem test_illegal :
    after (exec (.illegal 0xFFFFFFFF) (State.reset.accept 0xFFFFFFFF 0)) report = some (0b110, 12, 0xFFFFFFFF) := by decide

/-- L2.2, second line. -/
theorem test_maskLoad :
    after (exec .maskLoad (machine { Regs.reset with maskBase := 54, inLen := 66 }
      (bytesAt 54 [0x00, 0xF8, 0, 0, 0xE0, 0x07, 0, 0, 0x1F, 0, 0, 0]) []))
      (fun s => (s.regs.rmask, s.regs.gmask, s.regs.bmask)) = some (0xF800, 0x07E0, 0x001F) := by decide

/-- L2.2, last line: the end of the range saturates. -/
theorem test_maskLoad_truncated :
    after (exec .maskLoad (machine { Regs.reset with maskBase := 0xFFFFFFF8, inLen := 0xFFFFFFFF } [] [])) report =
      some (0b110, 9, 0xFFFFFFFF) := by decide

/-! ## The palette -/

/-- L2.3, third line: five bytes are one entry, `10 20 30 00`. The value is that of R251 and R42, {RSV, R, G, B} with
B = 10, G = 20, R = 30; the table's 0x0010_2030 does not agree with those rules (log 28). -/
theorem test_palLoad :
    after (exec .palLoad (machine { Regs.reset with palLen := 5, inLen := 5 } (bytesAt 0 [0x10, 0x20, 0x30, 0, 0x77]) []))
      (fun s => (s.regs.palCount, (palEntry s.pal 0).word)) = some (1, 0x00302010) := by decide

/-- L2.3, fourth line: entry 3 has reserved byte 1. -/
theorem test_palLoad_malformed :
    after (exec .palLoad (machine { Regs.reset with palLen := 16, inLen := 16, palCount := 2 } (bytesAt 15 [1]) []))
      (fun s => (report s, s.readReg .errcol, s.regs.palCount)) = some ((0b110, 5, 3), 1, 0) := by decide

/-- L2.3, PAL_LOOKUP of `30 20 10 00`. -/
theorem test_palLookup :
    after (exec .palLookup (machine { Regs.reset with palCount := 1 } [] [⟨0x30, 0x20, 0x10, 0⟩]))
      (fun s => s.regs.result) = some 0xFF102030 := by decide

/-- L2.3: all 32 bits of ARG are the index. -/
theorem test_palLookup_out_of_range :
    after (exec .palLookup (machine { Regs.reset with palCount := 2, arg := 0xFFFFFFFF } [] bw)) report =
      some (0b110, 6, 0xFFFFFFFF) := by decide

/-! ## The extractor -/

/-- L2.4, overlapping masks. -/
theorem test_bfx :
    after (exec .bfx (machine (maskedRegs { Regs.reset with arg := 0xABCD } 0xFF00 0x0FF0 0x00FF) [] []))
      (fun s => s.regs.result) = some 0xFFABBCCD := by decide

/-- L2.4, last line: green is checked before blue. -/
theorem test_bfx_invalid_mask :
    after (exec .bfx (machine (maskedRegs Regs.reset 0xF800 0x0F0F 0x00F0000F) [] []))
      (fun s => (report s, s.readReg .errcol)) = some ((0b110, 7, 0x0F0F), 1) := by decide

/-- L2.4, rescale tables: w = 2, selected w = 7, 10, 16, 32. -/
theorem test_rescale :
    (List.map (rescale · 2) [0, 1, 2, 3]) = [0, 85, 170, 255] ∧ (List.map (rescale · 7) [63, 64, 126]) = [126, 129, 253] ∧
    rescale 0x1FF 10 = 127 ∧ rescale 0x200 10 = 128 ∧ rescale 0x7FFF 16 = 127 ∧ rescale 0x80000000 32 = 128 := by decide

/-- L2.4, mask analysis. -/
theorem test_masks :
    (List.map contiguous [0, 1, 6, 0x7C00, 0x00FF0000, 0xFFFFFFFF, 0xF00F, 0x80000001, 0x00FF00FF]) =
      [true, true, true, true, true, true, false, false, false] ∧
    (List.map (fun m => (maskOff m, maskWidth m)) [0, 6, 0x7C00, 0xFFFFFFFF]) = [(0, 0), (1, 2), (10, 5), (0, 32)] := by
  decide

/-! ## The unpack paths (L2.5) -/

theorem test_unpack0 :
    after (exec (.unpack0 true) (machine (imageRegs 4 4 0 0 0) [] [])) (fun s => (report s, s.regs.outCount)) =
      some ((0b010, 0, 0), 0) := by decide

/-- A padding pixel's index is checked too: column 4 has index 1. -/
theorem test_unpack1_padding :
    after (exec (.unpack1 false) (machine { imageRegs 4 1 1 0 8 with palCount := 1 } (bytesAt 0 [0x0F, 0, 0, 0]) bw))
      (fun s => (report s, s.readReg .errrow, s.readReg .errcol)) = some ((0b110, 6, 1), 0, 4) := by decide

theorem test_unpack1 :
    after (exec (.unpack1 true) (machine { imageRegs 4 1 1 3 8 with palCount := 2 } (bytesAt 0 [0xF0, 0, 0, 0]) bw)) (out 5) =
      some [255, 255, 255, 255, 255] := by decide

theorem test_unpack4 :
    after (exec (.unpack4 false) (machine { imageRegs 3 1 4 0 8 with palCount := 4 } (bytesAt 0 [0x12, 0x30, 0, 0]) q4)) (out 12) =
      some [0, 0, 255, 255, 0, 255, 0, 255, 255, 0, 0, 255] := by decide

theorem test_unpack8 :
    after (exec (.unpack8 false) (machine { imageRegs 1 1 8 0 0x0A with palCount := 3 } (bytesAt 0 [2])
      [⟨0, 0, 0, 0⟩, ⟨0, 0, 0, 0⟩, ⟨0x30, 0x20, 0x10, 0⟩])) (out 4) = some [0xFF, 0x10, 0x20, 0x30] := by decide

theorem test_unpack16x555 :
    after (exec .unpack16x555 (machine (imageRegs 2 1 16 0 8) (bytesAt 0 [0x00, 0x7C, 0x10, 0x42]) [])) (out 8) =
      some [0xFF, 0, 0, 0xFF, 0x84, 0x84, 0x84, 0xFF] := by decide

theorem test_unpack16bf :
    after (exec .unpack16bf (machine (maskedRegs (imageRegs 2 1 16 3 8) 0xF800 0x07E0 0x001F)
      (bytesAt 0 [0x1F, 0xF8, 0x41, 0x08]) [])) (out 8) = some [0xFF, 0, 0xFF, 0xFF, 8, 8, 8, 0xFF] := by decide

/-- The case of C1: stored row 1 starts at byte 8, and bytes 6 and 7 form no pixel. -/
theorem test_unpack24 :
    after (exec (.unpack24 false) (machine (imageRegs 2 2 24 0 0)
      (bytesAt 0 [1, 2, 3, 4, 5, 6, 0xAA, 0xBB, 0x11, 0x12, 0x13, 0x14, 0x15, 0x16, 0xCC, 0xDD]) [])) (out 16) =
      some [3, 2, 1, 255, 6, 5, 4, 255, 0x13, 0x12, 0x11, 255, 0x16, 0x15, 0x14, 255] := by decide

theorem test_unpack32rgb :
    after (exec .unpack32rgb (machine (imageRegs 1 1 32 0 0x1A) (bytesAt 0 [0x33, 0x22, 0x11, 0xAB]) [])) (out 4) =
      some [0x33, 0x22, 0x11, 0xFF] := by decide

theorem test_unpack32bf :
    after (exec .unpack32bf (machine (maskedRegs (imageRegs 1 1 32 3 8) 0x3FF00000 0x000FFC00 0x000003FF)
      (bytesAt 0 [0x00, 0x02, 0x08, 0x20]) [])) (out 4) = some [0x80, 0x80, 0x80, 0xFF] := by decide

/-! ## Rejections (L2.6, V-L1-3, V-L1-4) -/

theorem test_rejects :
    (List.map (fun i => after (exec i (machine (imageRegs 4 2 8 0 0) [] [])) report)
      [.rejectRle8, .rejectRle4, .rejectJpeg, .rejectPng, .rejectOther 6]) =
      [some (0b110, 4, 1), some (0b110, 4, 2), some (0b110, 4, 4), some (0b110, 4, 5), some (0b110, 4, 6)] := by decide

/-- A negative height is reported first. -/
theorem test_rejectRle8_negative_height :
    after (exec .rejectRle8 (machine (imageRegs 4 0xFFFFFFFE 8 0 0) [] [])) report = some (0b110, 2, 1) := by decide

/-! ## DECODE's checks (L2.8) -/

theorem test_decode_output_too_small :
    after (exec .decode (machine { imageRegs 2 2 32 0 0 with outLen := 15 } [] [])) report = some (0b110, 10, 16) := by
  decide

theorem test_decode_truncated :
    after (exec .decode (machine { imageRegs 1 1 24 0 0 with pixBase := 54, inLen := 57 } [] [])) report =
      some (0b110, 9, 58) := by decide

/-- The sizes of the largest image: the need saturates. -/
theorem test_decode_largest :
    after (exec .decode (machine { imageRegs 0x7FFFFFFF 0x80000000 8 0 0 with outLen := 0xFFFFFFFF } [] [])) report =
      some (0b110, 10, 0xFFFFFFFF) := by decide

theorem test_orderInvalid :
    after (exec (.orderInvalid 7) (machine (imageRegs 4 4 0 0 0) [] [])) report = some (0b110, 8, 7) := by decide

/-! ## Channel orders, output formats (L2.7) and orientation (R375) -/

/-- The pixel 0xFF11_2233 in each order, as bytes and as words. -/
theorem test_orders :
    (List.map (fun i => after (exec i (machine (imageRegs 1 1 32 0 0) (bytesAt 0 [0x33, 0x22, 0x11, 0]) [])) (out 4))
      [.orderRgba, .orderBgra, .orderArgb, .orderAbgr]) =
      [some [0x11, 0x22, 0x33, 0xFF], some [0x33, 0x22, 0x11, 0xFF], some [0xFF, 0x11, 0x22, 0x33],
        some [0xFF, 0x33, 0x22, 0x11]] := by decide

theorem test_outputs :
    after (exec .outWords (machine (imageRegs 1 1 32 0 0) (bytesAt 0 [0x33, 0x22, 0x11, 0]) [])) (out 4) =
      some [0xFF, 0x33, 0x22, 0x11] ∧
    after (exec .outBytes (machine (imageRegs 1 1 32 0 0x12) (bytesAt 0 [0x33, 0x22, 0x11, 0]) [])) (out 4) =
      some [0xFF, 0x11, 0x22, 0x33] := by decide

/-- HEIGHT = 3 stored rows 1, 2, 3 (their blue bytes): top-down from stored rows 2, 1, 0; HEIGHT = -3 as stored. -/
theorem test_orientTopdown :
    (List.map (fun h => after (exec .orientTopdown (machine (imageRegs 1 h 32 0 1) (bytesAt 0 [1, 0, 0, 0, 2, 0, 0, 0, 3]) []))
      (fun s => [s.outmem.read 0, s.outmem.read 4, s.outmem.read 8])) [3, 0xFFFFFFFD]) =
      [some [3, 2, 1], some [1, 2, 3]] := by decide

theorem test_orientBottomup :
    (List.map (fun h => after (exec .orientBottomup (machine (imageRegs 1 h 32 0 9) (bytesAt 0 [1, 0, 0, 0, 2, 0, 0, 0, 3]) []))
      (fun s => [s.outmem.read 0, s.outmem.read 4, s.outmem.read 8])) [3, 0xFFFFFFFD]) =
      [some [1, 2, 3], some [3, 2, 1]] := by decide

/-! ## The host's side (L2.1) -/

/-- CLRDONE of 0b110 leaves 0b100; a write of 0b101 changes nothing. -/
theorem test_status_writes :
    ((machine { Regs.reset with done := true, err := true, errcode := 4 } [] []).mmioWrite 8 2).status = 0b100 ∧
    ((machine { Regs.reset with done := true } [] []).mmioWrite 8 5).status = 0b010 := by decide

/-- A write while busy is lost. -/
theorem test_write_while_busy : ((State.reset.accept 5 3).mmioWrite 0x020 7).regs.width = 0 := by decide

/-- Reads of ID, of reserved space and of a loaded PALWIN entry. -/
theorem test_reads :
    (State.reset.mmioRead 0).busData = 0x56440001 ∧ (State.reset.mmioRead 0x3FC).busData = 0 ∧
    ((machine { Regs.reset with palCount := 2 } [] bw).mmioRead 0x404).busData = 0x00FFFFFF := by decide

/-- The host's words of P1, a PALWIN register by name (R32), and OUTB from an address other than 0 (R149). -/
theorem test_host_words :
    hostCMD .palLoad = .wr 4 4 1 ∧ hostSETFMT 2 true true = .wr 0x3C 4 0x1A ∧ hostCLRDONE = .wr 8 4 2 ∧
    hostRD (.palwin 255) = .rd 0x7FC 4 ∧ hostWR (.palwin 1) 9 = .wr 0x404 4 9 ∧
    hostOUTB 4 6 = [.outb 4, .outb 5, .outb 6] ∧ hostOUTB 0 0 = [.outb 0] := by decide

/-- The last line of LOADFILE reads exactly OUT_COUNT bytes (R471); none where it is 0. -/
theorem test_outb_count :
    after ((machine { Regs.reset with outCount := 3 } [] []).hostOp .outbCount) (fun s => s.host) =
      some [.outb 0, .outb 1, .outb 2] ∧
    after (State.reset.hostOp .outbCount) (fun s => s.host) = some [] := by decide

/-- R470: a bad signature; a bad plane count behind a good file header. -/
theorem test_header_errors :
    headerError [] = some .malformedHeader ∧
    headerError ((bytesAt 14 [40]).write 0 0x42 |>.write 1 0x4D) = some .unsupportedFormat ∧
    headerError ((bytesAt 14 [40]).write 0 0x42 |>.write 1 0x4D |>.write 26 1) = none := by decide

/-- R478: a 4-byte output and 4 bytes of pixel data on one physical memory: one byte in common, adjacent on either side,
and on separate memories. -/
theorem test_memory_overlap :
    let o := imageRegs 1 1 32 0 0
    memoryOverlap true 100 103 o = true ∧ memoryOverlap true 103 100 o = true ∧ memoryOverlap true 100 104 o = false ∧
    memoryOverlap true 104 100 o = false ∧ memoryOverlap false 100 100 o = false ∧
    memoryOverlap true 100 100 { o with outLen := 3 } = false := by decide

/-- R441: a reset that coincides with the completion wins; a write that does is ordered after it. -/
theorem test_coincidence :
    after (step { (State.reset.accept 5 0) with host := [.rst true] }) (fun s => (s.status, s.pending.isSome, s.rst)) =
      some (0b000, false, true) ∧
    after (step { (State.reset.accept 5 0) with host := [.wr 8 4 2] }) (fun s => (s.status, s.host.length)) =
      some (0b010, 1) := by decide

/-! ## Witnesses: for every obligation with hypotheses, a state and operands that meet all of them, each clause at a
boundary of its range -/

/-- A 1×2 image of 4 stored bytes a row, bottom-up, to be shown top-down: index 1 (or word 1) then 0; palette BW. -/
def shown (bpp : BitVec 16) (comp : Word) : State :=
  machine (maskedRegs { imageRegs 1 2 bpp comp 8 with palCount := 2, inLen := 8, outLen := 8 } 0x7C00 0x03E0 0x001F)
    (bytesAt 0 [0x01]) bw

/-- A command pending, just accepted, with a given latency and host list. -/
def busyWith (w : Word) (d : Nat) (host : List HostOp) (s : State) : State := { (s.accept w d) with host := host }

theorem witness_EncodeThenDecode : (Instr.illegal 6).wf = true ∧ (Instr.orderInvalid 7).wf = true := by decide

theorem witness_DecodeThenEncode : Sys2Proof.decode ⟨.comp, 0xFFFFFFFF⟩ = .ok (.rejectOther 0xFFFFFFFF) := by decide

theorem witness_EveryOpcodeRow :
    ⟨.cmd, 0x80000000#32, 0x80000000#32, "ILLEGAL"⟩ ∈ opcodeRows ∧
    0xFFFFFFFF#32 &&& 0x80000000#32 = 0x80000000#32 ∧ 0xFFFFFFFF#32 &&& ~~~ Format.field .cmd = 0#32 := by decide

theorem witness_IllegalWords : 6 ≤ (6#32).toNat ∧ 6 ≤ (0xFFFFFFFF#32).toNat := by decide

theorem witness_ModeKeySelects :
    (shown 32 3).operands.compression = 3#32 ∧ Sys2Proof.decodeMode (shown 32 3).operands.modeKey = .ok .unpack32bf ∧
    (shown 0 0).operands.compression = 0#32 ∧ Sys2Proof.decodeMode (shown 0 0).operands.modeKey = .ok (.unpack0 false) := by
  decide

theorem witness_CompressionAndFormat :
    Sys2Proof.decodeComp (shown 8 0xFFFFFFFF).operands.compression = .ok (.rejectOther 0xFFFFFFFF) := by decide

theorem witness_StepRuns :
    (busyWith 5 0 [] State.reset).pending.isSome = true ∧
    ((busyWith 5 0 [] State.reset).pending.map fun p => (p.word, p.delay)) = some (5, 0) ∧
    Sys2Proof.decode ⟨.cmd, 5⟩ = .ok .decode ∧
    ((busyWith 5 1 [] State.reset).pending.map fun p => p.delay) = some (0 + 1) ∧ State.reset.pending = none ∧
    ((busyWith 5 0 [.rst true] State.reset).pending.map fun p => p.delay) = some 0 ∧
    (busyWith 5 0 [.rst true] State.reset).host = [.rst true] := by decide

/-- Also with operands that are admitted, have an output and read pixel data (whether they overlap is the platform's). -/
theorem witness_CommandWrite :
    ({ State.reset with host := [.wr 4 4 0xFFFFFFFF] } : State).pending = none ∧ State.reset.rst = false ∧
    (Admitted (shown 8 0).regs ∧ 0 < (shown 8 0).regs.need ∧ 0 < (shown 8 0).regs.rowBytes * (shown 8 0).regs.rowCount) ∧
    ((busyWith 0 1 [.wr 4 4 5] State.reset).pending.map fun p => p.delay) = some 1 := by decide

theorem witness_WritesWhileBusy :
    (busyWith 0 1 [.wr 0x1C 4 1] State.reset).host = [.wr 0x1C 4 1] ∧ (0x1C#32).toNat % 4 = 0 ∧
    ((busyWith 0 1 [.wr 0x1C 4 1] State.reset).pending.map fun p => p.delay) = some 1 := by decide

/-- A busy machine with one loaded palette entry and one byte of INMEM, whose step goes on. -/
theorem witness_StepKeepsTheInvariant :
    (busyWith 5 1 [] (machine { Regs.reset with palCount := 1 } [(0, 7)] (List.replicate 256 ⟨1, 2, 3, 0⟩))).Inv ∧
    ∃ t, step (busyWith 5 1 [] (machine { Regs.reset with palCount := 1 } [(0, 7)] (List.replicate 256 ⟨1, 2, 3, 0⟩))) =
      .next t := by
  refine ⟨?_, _, rfl⟩
  constructor <;> decide +kernel

theorem witness_PendingCommandCompletes :
    (busyWith 0 2 [] State.reset).host = [] ∧ (busyWith 0 2 [] State.reset).pending.isSome = true := by decide

/-- An instruction that answers a next state without an error, and two that answer one with an error. -/
theorem witness_ExecNext :
    after (exec .nop (State.reset.accept 0 0)) (fun t => t.regs.err) = some false ∧
    after (exec .palLoad (machine { Regs.reset with palLen := 1 } [] bw)) (fun t => (t.regs.err, t.regs.errcode)) =
      some (true, 9) ∧
    after (exec (.unpack8 false) (machine { (shown 8 0).regs with palCount := 1 } (bytesAt 0 [1]) bw))
      (fun t => (t.regs.err, t.regs.errcode)) = some (true, 6) := by decide

/-- A DECODE selects its operands; byte 8 lies at `need`. -/
theorem witness_ErrorsLeaveMemory :
    selected (.unpack8 false) (shown 8 0).operands = some ((shown 8 0).operands.withMode 8 false) ∧
    ((shown 8 0).operands.withMode 8 false).need = 8 := by decide

/-- INMEM differing at address IN_LEN only. -/
theorem witness_CommandsReadOnlyBelowInLen :
    (∀ a < (shown 8 0).operands.inLen.toNat, Memory.read (bytesAt 0 [1, 0, 0, 0, 0, 0, 0, 0, 7]) a = (shown 8 0).inmem.read a) ∧
    after (exec .decode (shown 8 0)) (fun t => t.regs.err) = some false := by decide

theorem witness_CommandsWriteOnlyBelowOutLen :
    (shown 8 0).operands.outLen.toNat ≤ 8 ∧ after (exec .decode (shown 8 0)) (fun t => t.outmem.read 7) = some 255 := by
  decide

theorem witness_InterruptAndStatus :
    State.reset.pending = none ∧ State.reset.rst = false ∧ (2#32).getLsbD 1 = true ∧ (0xFFFFFFFF#32).getLsbD 1 = true ∧
    (5#32).getLsbD 1 = false ∧ (0#32).getLsbD 0 = false ∧ (0xFFFFFFFE#32).getLsbD 0 = false := by decide

theorem witness_ResetLeaves : ((busyWith 1 1 [] State.reset).pending.map fun p => p.word) = some 1#32 ∧ 1#32 ≠ 5#32 := by
  decide

/-- With the latency over, and with some left. -/
theorem witness_ResetAbandons :
    ((busyWith 5 0 [.rst true] (shown 8 0)).pending.map fun p => p.delay) = some 0 ∧
    ((busyWith 5 1 [.rst true] (shown 8 0)).pending.map fun p => p.delay) = some 1 ∧
    (busyWith 5 0 [.rst true] (shown 8 0)).host = [.rst true] ∧ (busyWith 5 0 [.rst true] (shown 8 0)).regs.outLen.toNat ≤ 8 := by
  decide

theorem witness_ReservedSpace :
    (0x068#32).toNat % 4 = 0 ∧ (0x3FC#32).toNat % 4 = 0 ∧ (0x3FC#32).toNat ≤ 0x3FC ∧ (0x800#32).toNat % 4 = 0 ∧
    0x800 ≤ (0x800#32).toNat ∧ 0x800 ≤ (0xFFFFFFFC#32).toNat := by decide

theorem witness_WritableRegisters : (State.reset.pending = none ∧ State.reset.rst = false) := by decide

theorem witness_Palwin :
    255 < ({ Regs.reset with palCount := 256 } : Regs).palCount.toNat ∧
    (List.replicate 256 (⟨1, 2, 3, 0⟩ : PalEntry))[255]? = some ⟨1, 2, 3, 0⟩ := by decide +kernel

theorem witness_OddAccesses : (2 ≠ 4 ∨ (0#32).toNat % 4 ≠ 0) ∧ (4 ≠ 4 ∨ (0x0A#32).toNat % 4 ≠ 0) := by decide

/-- IN_LEN at the end of the mask block, and one below. -/
theorem witness_MaskLoad :
    54 + 12 ≤ (machine { Regs.reset with maskBase := 54, inLen := 66 } [] []).operands.inLen.toNat ∧
    (machine { Regs.reset with maskBase := 54, inLen := 65 } [] []).operands.inLen.toNat < 54 + 12 := by decide

/-- A region that ends at IN_LEN, of exactly 256 entries. -/
theorem witness_PalLoad :
    0 + (1024#32).toNat ≤ (1024#32).toNat ∧ (∀ i < 256, Memory.read [] (0 + 4 * i + 3) = 0#8) ∧ (1024#32).toNat / 4 ≤ 256 := by
  decide +kernel

/-- A region one byte too long; a bad first entry, and a bad last entry; 257 entries. -/
theorem witness_PalLoadErrors :
    (7#32).toNat < 0 + (8#32).toNat ∧
    (Memory.read (bytesAt 3 [1]) (0 + 4 * 0 + 3) ≠ 0#8) ∧
    (Memory.read (bytesAt 7 [1]) (0 + 4 * 1 + 3) ≠ 0#8 ∧ ∀ i < 1, Memory.read (bytesAt 7 [1]) (0 + 4 * i + 3) = 0#8) ∧
    256 < (1028#32).toNat / 4 ∧ (∀ i < 257, Memory.read [] (0 + 4 * i + 3) = 0#8) := by decide +kernel

/-- The last index below PAL_COUNT, and PAL_COUNT itself. -/
theorem witness_PalLookup :
    (machine { Regs.reset with palCount := 2, arg := 1 } [] bw).operands.arg.toNat < 2 ∧ bw[1]? = some ⟨255, 255, 255, 0⟩ ∧
    2 ≤ (machine { Regs.reset with palCount := 2, arg := 2 } [] bw).operands.arg.toNat := by decide

theorem witness_Bfx :
    contiguous 0xF00F = false ∧ contiguous 0xFFFFFFFF = true ∧ contiguous 0 = true ∧ contiguous 0x80000001 = false := by decide

/-- The narrowest, the topmost and the widest runs. -/
theorem witness_Masks :
    (1#32).toNat = (2 ^ 1 - 1) * 2 ^ 0 ∧ (0x80000000#32).toNat = (2 ^ 1 - 1) * 2 ^ 31 ∧ 31 + 1 ≤ 32 ∧
    (0xFFFFFFFF#32).toNat = (2 ^ 32 - 1) * 2 ^ 0 ∧ 0 + 32 ≤ 32 := by decide

theorem witness_Rescale : (1 ≤ 1 ∧ 1 ≤ 32 ∧ 1 ≤ 2 ^ 1 - 1) ∧ (1 ≤ 32 ∧ 32 ≤ 32 ∧ 0xFFFFFFFF ≤ 2 ^ 32 - 1) := by decide

theorem witness_DecodeReports :
    selected .decode (machine { imageRegs 2 2 32 0 0 with outLen := 15 } [] []).operands =
      some { imageRegs 2 2 32 0 0 with outLen := 15 } ∧
    firstError { imageRegs 2 2 32 0 0 with outLen := 15 } = some (10, 16, 0) := by decide

/-- Height and width at 0 and at -1. -/
theorem witness_Rejected :
    encode .rejectRle8 = ⟨.comp, 1⟩ ∧ encode (.rejectOther 6) = ⟨.comp, 6⟩ ∧ (Instr.rejectOther 6).wf = true ∧
    0 ≤ (imageRegs 0 0 8 0 0).heightInt ∧ 0 ≤ (imageRegs 0 0 8 0 0).widthInt ∧
    (imageRegs 0 0xFFFFFFFF 8 0 0).heightInt < 0 ∧ (imageRegs 0xFFFFFFFF 0 8 0 0).widthInt < 0 := by decide

theorem witness_InvalidOrders :
    4 ≤ (4#3).toNat ∧ (shown 16 3).operands.compression = 3#32 ∧ 0 ≤ (shown 16 3).operands.widthInt ∧
    (shown 16 3).operands.bpp ∈ [0#16, 1#16, 4#16, 8#16, 16#16, 24#16, 32#16] ∧
    ((shown 16 3).operands.usesMasks = true → contiguous (shown 16 3).operands.rmask = true ∧
      contiguous (shown 16 3).operands.gmask = true ∧ contiguous (shown 16 3).operands.bmask = true) := by decide

/-- Admitted operands of every depth, OUT_LEN and IN_LEN exactly large enough, and pixels that all unpack. -/
theorem witness_DecodeWrites :
    selected .decode (shown 8 0).operands = some (shown 8 0).operands ∧ Admitted (shown 8 0).operands ∧
    (∀ sr < (shown 8 0).operands.rowCount, ∀ c < (shown 8 0).operands.paddedWidth,
      unpackPixel (shown 8 0).operands (shown 8 0).pal (shown 8 0).inmem sr c =
        .ok (if sr = 0 ∧ c = 0 then 0xFFFFFFFF#32 else 0xFF000000#32)) := by decide +kernel

theorem witness_ZeroBitDepth :
    Admitted (shown 0 0).operands ∧ (shown 0 0).operands.bpp = 0#16 ∧ Admitted ((shown 8 0).operands.withMode 0#16 true) := by
  decide

theorem witness_IndexedPaths :
    (shown 8 0).operands.palCount.toNat ≤ (shown 8 0).pal.length ∧
    Admitted ((shown 8 0).operands.withMode 1#16 true) ∧
    (∀ sr < 2, ∀ c < 32, storedIndex ((shown 8 0).operands.withMode 1#16 true) (shown 8 0).inmem sr c < 2) ∧
    Admitted ((shown 8 0).operands.withMode 4#16 false) ∧
    (∀ sr < 2, ∀ c < 8, storedIndex ((shown 8 0).operands.withMode 4#16 false) (shown 8 0).inmem sr c < 2) ∧
    Admitted ((shown 8 0).operands.withMode 8#16 true) ∧
    (∀ sr < 2, ∀ c < 4, storedIndex ((shown 8 0).operands.withMode 8#16 true) (shown 8 0).inmem sr c < 2) := by decide

theorem witness_DirectPaths :
    Admitted ((shown 8 0).operands.withMode 16#16 false) ∧ Admitted ((shown 8 0).operands.withMode 16#16 true) ∧
    Admitted ((shown 8 0).operands.withMode 24#16 false) ∧ Admitted ((shown 8 0).operands.withMode 24#16 true) ∧
    Admitted ((shown 8 0).operands.withMode 32#16 false) ∧ Admitted ((shown 8 0).operands.withMode 32#16 true) :=
  ⟨by decide, by decide, by decide, by decide, by decide, by decide⟩

/-- PAL_COUNT 1: the first pixel's index 1 is out of range; and a padding pixel of the last stored row. -/
theorem witness_FirstOutOfRange :
    (let o := { (shown 8 0).regs with palCount := 1 }
     Admitted o ∧ 1 ≤ storedIndex o (bytesAt 0 [1]) 0 0) ∧
    (let o := { (shown 8 0).regs with palCount := 1 }
     3 < o.paddedWidth ∧ 1 < o.rowCount ∧ 1 ≤ storedIndex o (bytesAt 7 [1]) 1 3 ∧
     ∀ r < o.rowCount, ∀ k < o.paddedWidth, (r < 1 ∨ r = 1 ∧ k < 3) → storedIndex o (bytesAt 7 [1]) r k < 1) := by decide +kernel

theorem witness_Orders :
    Admitted ((shown 8 0).operands.withOrder 0#3) ∧ Admitted ((shown 8 0).operands.withOrder 1#3) ∧
    Admitted ((shown 8 0).operands.withOrder 2#3) ∧ Admitted ((shown 8 0).operands.withOrder 3#3) ∧
    ∀ sr < 2, ∀ c < 4, unpackPixel ((shown 8 0).operands.withOrder 3#3) (shown 8 0).pal (shown 8 0).inmem sr c =
      .ok (if sr = 0 ∧ c = 0 then 0xFFFFFFFF#32 else 0xFF000000#32) :=
  ⟨by decide, by decide, by decide, by decide, by decide +kernel⟩

theorem witness_RgbaPermuted :
    ((shown 8 0).operands.withOrder 0#3).outfmt = false ∧ Admitted ((shown 8 0).operands.withOrder 0#3) := by decide

theorem witness_UnpackedPixels :
    unpackPixel (shown 24 0).regs [] (shown 24 0).inmem 0 0 = .ok 0xFF000001#32 := by decide +kernel

theorem witness_PaddedRows :
    0 ≤ (imageRegs 0x7FFFFFFF 1 24 0 0).widthInt ∧ 0 ≤ (imageRegs 0 1 1 0 0).widthInt ∧
    (imageRegs 0x7FFFFFFF 1 24 0 0).bpp ∈ [1#16, 4#16, 8#16, 16#16, 24#16, 32#16] := by decide

set_option synthInstance.maxSize 1000 in
/-- The first and the last byte of each command's range, and the bytes beside it. -/
theorem witness_InmemHazards_decode :
    let o := (shown 8 0).regs
    ReadsInmem 5#32 o 0 ∧ ReadsInmem 5#32 o 7 ∧ ¬ReadsInmem 5#32 o 8 := by decide

set_option synthInstance.maxSize 1000 in
theorem witness_InmemHazards_maskLoad :
    let o := { Regs.reset with maskBase := 54, inLen := 66 }
    ¬ReadsInmem 2#32 o 53 ∧ ReadsInmem 2#32 o 54 ∧ ReadsInmem 2#32 o 65 ∧ ¬ReadsInmem 2#32 o 66 := by decide

set_option synthInstance.maxSize 1000 in
theorem witness_InmemHazards_palLoad :
    let o := { Regs.reset with palBase := 54, palLen := 8, inLen := 62 }
    ¬ReadsInmem 1#32 o 53 ∧ ReadsInmem 1#32 o 54 ∧ ReadsInmem 1#32 o 61 ∧ ¬ReadsInmem 1#32 o 62 := by decide

/-- Such a command pending; an idle block; the address that does not exist, and the last one that does. -/
theorem witness_InmemHazards :
    ((busyWith 5 1 [] (shown 8 0)).pending.map fun p => (p.word, p.snap.pixBase, p.snap.inLen)) = some (5, 0, 8) ∧
    State.reset.pending = none ∧ (0xFFFFFFFF#32).toNat = 2 ^ 32 - 1 ∧ (0xFFFFFFFE#32).toNat ≠ 2 ^ 32 - 1 := by decide

/-- An idle block; a busy one with OUT_LEN 8 at its bytes 7 and 8; the last addresses. -/
theorem witness_OutmemReads :
    State.reset.pending = none ∧
    (let s := busyWith 5 1 [] (shown 8 0)
     s.pending ≠ none ∧ (7#32).toNat < s.regs.outLen.toNat ∧ s.regs.outLen.toNat ≤ (8#32).toNat) ∧
    (0xFFFFFFFF#32).toNat = 2 ^ 32 - 1 ∧ (0xFFFFFFFE#32).toNat ≠ 2 ^ 32 - 1 := by decide

theorem witness_MmioReads : State.reset.rst = false ∧ (8#32).toNat % 4 = 0 := by decide

theorem witness_Wait : State.reset.rst = false ∧ State.reset.busy = false ∧ (State.reset.accept 0 1).busy = true := by decide

end Sys2Proof.Tests
end

section
/-! The stored row (`00_scope.md` R20): S is the least whole number of 32-bit words that holds W pixels, and P the number
of whole pixels in it. -/

namespace Sys2Proof.Machine
variable {o : Regs}

/-- S is counted in 32-bit words. -/
theorem Regs.rowBytes_mod_four (o : Regs) : o.rowBytes % 4 = 0 := Nat.mul_mod_left _ 4

/-- A stored row's bits are a multiple of 32, for any bit depth. -/
theorem Regs.thirtyTwo_dvd_rowBits (o : Regs) : 32 ∣ o.rowBytes * 8 :=
  Nat.mul_dvd_mul_right (Nat.dvd_of_mod_eq_zero o.rowBytes_mod_four) 8

theorem Regs.imageBits_le_rowBits (o : Regs) : o.imageWidth * o.bpp.toNat ≤ o.rowBytes * 8 := by
  unfold Regs.rowBytes
  omega

theorem Regs.rowBits_lt_imageBits_add_word (o : Regs) : o.rowBytes * 8 < o.imageWidth * o.bpp.toNat + 32 := by
  unfold Regs.rowBytes
  omega

/-- P covers W, because the row's bits hold W pixels. -/
theorem Regs.imageWidth_le_paddedWidth (hpos : 0 < o.bpp.toNat) : o.imageWidth ≤ o.paddedWidth :=
  (Nat.le_div_iff_mul_le hpos).2 o.imageBits_le_rowBits

/-- R324: a bit depth that divides the 32-bit word leaves no bit of the row over. -/
theorem Regs.paddedWidth_mul_bpp (hdvd : o.bpp.toNat ∣ 32) : o.paddedWidth * o.bpp.toNat = o.rowBytes * 8 :=
  Nat.div_mul_cancel (hdvd.trans o.thirtyTwo_dvd_rowBits)

/-- R324: at 24 bpp the row's bytes that form no pixel are 0, 1 or 2. -/
theorem Regs.rowBytes_bounds_of_bpp_24 (h24 : o.bpp = 24#16) :
    3 * o.paddedWidth ≤ o.rowBytes ∧ o.rowBytes < 3 * o.paddedWidth + 3 := by
  have hP : o.paddedWidth = o.rowBytes * 8 / 24 := by simp [Regs.paddedWidth, h24]
  omega

/-- The supported bit depths are positive, and each but 24 divides the 32-bit word. -/
theorem bpp_pos_and_dvd_word {b : BitVec 16} (hb : b ∈ [1#16, 4#16, 8#16, 16#16, 24#16, 32#16]) :
    0 < b.toNat ∧ (b ≠ 24#16 → b.toNat ∣ 32) := by
  simp only [List.mem_cons, List.not_mem_nil, or_false] at hb
  rcases hb with rfl | rfl | rfl | rfl | rfl | rfl <;> decide

/-- Settles O57: the row's bits are whole 32-bit words, which every supported bit depth but 24 divides. -/
theorem paddedRowsHoldTheirPixels : Obligations.PaddedRowsHoldTheirPixels := by
  intro o _ hbpp
  obtain ⟨hpos, hdvd⟩ := bpp_pos_and_dvd_word hbpp
  rw [Nat.mul_comm 8]
  exact ⟨Regs.imageWidth_le_paddedWidth hpos, o.rowBytes_mod_four, o.imageBits_le_rowBits,
    o.rowBits_lt_imageBits_add_word, fun h => Regs.paddedWidth_mul_bpp (hdvd h), Regs.rowBytes_bounds_of_bpp_24⟩

end Sys2Proof.Machine
end

section
/-! The register file at the bus (`10_state.md`): where an offset is decoded, what a write of a register does, and what
every register then reads. -/

namespace Sys2Proof.Machine
variable {s : State} {r r' : Reg} {off v : Word}

/-- R32: every register but PALWIN stands below 0x068. -/
theorem Reg.offset_lt (r : Reg) : r.offset.toNat < 0x068 := by cases r <;> decide

/-- R64: the offsets of the map's gap and those past PALWIN are decoded as reserved. -/
theorem target_reserved (h : 0x068 ≤ off.toNat ∧ off.toNat ≤ 0x3FC ∨ 0x800 ≤ off.toNat) : target off = .reserved := by
  have hnone : Reg.all.find? (fun r => r.offset == off) = none := by
    refine List.find?_eq_none.2 fun r _ hr => ?_
    have := r.offset_lt
    rw [eq_of_beq hr] at this
    omega
  rw [target, hnone]
  exact if_neg (by omega)

/-- A write of a register other than CMD: ignored in reset and while busy, else what `Regs.write` stores (R32). -/
theorem State.mmioWrite_offset (hr : r ≠ .cmd) :
    s.mmioWrite r.offset v = if s.rst || s.busy then s else { s with regs := s.regs.write v r } := by
  rw [State.mmioWrite, target_offset]
  cases r
  case cmd => contradiction
  all_goals rfl

theorem State.mmioWrite_offset_of_idle (hr : r ≠ .cmd) (hp : s.pending = none) (hrst : s.rst = false) :
    s.mmioWrite r.offset v = { s with regs := s.regs.write v r } := by
  simp [State.mmioWrite_offset hr, State.busy, hp, hrst]

/-- A write that stores nothing leaves the machine as it is, busy or not. -/
theorem State.mmioWrite_offset_of_write_eq (hr : r ≠ .cmd) (hw : s.regs.write v r = s.regs) :
    s.mmioWrite r.offset v = s := by
  rw [State.mmioWrite_offset hr, hw]
  exact ite_self s

/-- A write outside the registers changes nothing (R42, R64). -/
theorem State.mmioWrite_of_target_ne_reg (h : ∀ r, target off ≠ .reg r) : s.mmioWrite off v = s := by
  unfold State.mmioWrite
  split
  · rfl
  · split
    · exact absurd ‹_› (h _)
    · exact absurd ‹_› (h _)
    · rfl
    · rfl

/-- R64: the read-only registers ignore a write. -/
theorem Regs.write_readOnly (regs : Regs) (v : Word)
    (hr : r ∈ [Reg.id, .errcode, .errinfo, .errrow, .errcol, .palCount, .result, .outCount]) :
    regs.write v r = regs := by
  simp only [List.mem_cons, List.not_mem_nil, or_false] at hr
  rcases hr with rfl | rfl | rfl | rfl | rfl | rfl | rfl | rfl <;> rfl

/-- Each register has its own bits: a stored write of one leaves what every other reads. -/
theorem State.readReg_write_of_ne (hne : r' ≠ r) :
    State.readReg { s with regs := s.regs.write v r } r' = s.readReg r' := by
  cases r <;> cases r'
  any_goals contradiction
  all_goals rfl

/-- Settles O27: reserved offsets and read-only registers have nothing to store, and a narrow register is
zero-extended. -/
theorem reservedSpaceReadsZeroAndIgnoresWrites : Obligations.ReservedSpaceReadsZeroAndIgnoresWrites := by
  intro s hrst
  refine ⟨fun off _ hoff => ⟨?_, fun v => ?_⟩, fun r hr v => ?_, ?_⟩
  · simp [State.mmioRead, hrst, target_reserved hoff]
  · exact State.mmioWrite_of_target_ne_reg (by simp [target_reserved hoff])
  · refine State.mmioWrite_offset_of_write_eq ?_ (s.regs.write_readOnly v hr)
    rintro rfl
    simp at hr
  · have narrow : ∀ {n : Nat} (b : BitVec n), (b.setWidth 32).toNat < 2 ^ n := fun b =>
      lt_of_le_of_lt (by rw [BitVec.toNat_setWidth]; exact Nat.mod_le _ _) b.isLt
    exact ⟨narrow _, narrow _, narrow _, narrow _, narrow _, narrow _⟩

/-- How many bits of a written word a read-write register keeps (R32); `none` for the others, CMD and STATUS among
them. -/
def Reg.keptBits : Reg → Option Nat
  | .irqen => some 1
  | .bpp => some 16
  | .fmt => some 5
  | .width | .height | .compression | .rmask | .gmask | .bmask | .pixBase | .inLen | .outLen | .palBase | .palLen
  | .maskBase | .arg => some 32
  | .id | .cmd | .status | .errcode | .errinfo | .errrow | .errcol | .palCount | .result | .outCount => none

/-- A stored write of a read-write register reads back cut to the bits it keeps (R32). -/
theorem State.readReg_write_self {k : Nat} (hk : r.keptBits = some k) :
    (State.readReg { s with regs := s.regs.write v r } r).toNat = v.toNat % 2 ^ k := by
  cases r <;> simp only [Reg.keptBits, Option.some.injEq, reduceCtorEq] at hk <;> subst hk
  case irqen =>
    have hbit : (v.getLsbD 0).toNat = v.toNat % 2 ^ 1 := by
      rw [BitVec.getLsbD, Nat.toNat_testBit, pow_zero, Nat.div_one, pow_one]
    simp only [State.readReg, Regs.write, BitVec.toNat_setWidth, BitVec.toNat_ofBool, hbit]
    omega
  case bpp => simp only [State.readReg, Regs.write, BitVec.toNat_setWidth]; omega
  case fmt => simp only [State.readReg, Regs.write, BitVec.toNat_setWidth]; omega
  all_goals exact (Nat.mod_eq_of_lt v.isLt).symm

/-- Settles O28: the write stores into one register, whose bits no other register reads. -/
theorem writableRegistersReadBack : Obligations.WritableRegistersReadBack := by
  intro s v hp hrst rk hrk
  have hk : rk.1.keptBits = some rk.2 := by revert rk; decide
  have hcmd : rk.1 ≠ .cmd := by intro h; simp [h, Reg.keptBits] at hk
  rw [State.mmioWrite_offset_of_idle hcmd hp hrst]
  exact ⟨State.readReg_write_self hk, fun r hr => State.readReg_write_of_ne hr, _, rfl⟩

/-- Settles O29: the offset decodes to the entry's window, and a write of a window stores nothing. -/
theorem palwinReadsLoadedEntries : Obligations.PalwinReadsLoadedEntries := by
  intro s i e hrst hi
  have ht : target (BitVec.ofNat 32 (0x400 + 4 * i)) = .palwin i := target_palwin ⟨i, hi⟩
  refine ⟨fun hlt he => ?_, fun v => State.mmioWrite_of_target_ne_reg (by simp [ht])⟩
  have hentry : palEntry s.pal i = e := by simp [palEntry, List.getD_eq_getElem?_getD, he]
  simp [State.mmioRead, hrst, ht, hlt, hentry, PalEntry.word, argb]

/-- Settles O17: a write of STATUS can only clear DONE, and BUSY excludes DONE and ERR by the invariant. -/
theorem statusWritesAndReadings : Obligations.StatusWritesAndReadings := by
  refine ⟨fun s v hp hrst => ?_, fun s hinv => ?_⟩
  · have hw : s.mmioWrite 0x008#32 v = { s with regs := s.regs.writeStatus v } :=
      State.mmioWrite_offset_of_idle (r := .status) (by decide) hp hrst
    rw [hw, Regs.writeStatus]
    cases v.getLsbD 1 <;> simp
  · change statusWord s.busy s.regs.done s.regs.err ∈ _
    cases hb : s.busy with
    | true =>
      obtain ⟨hdone, herr, -, -⟩ := hinv.busy_cleared hb
      rw [hdone, herr]
      decide
    | false => cases s.regs.done <;> cases s.regs.err <;> decide

end Sys2Proof.Machine
end

section
/-! What an instruction writes (`10_state.md` section 5), read off the ways it can complete. -/

namespace Sys2Proof.Machine

open Sys2Proof.Spec

variable {i : Instr} {s t : State}

/-- The next state of an instruction is one of its completions. -/
theorem Completes.of_exec (h : exec i s = .next t) : Completes i s t := by
  obtain ⟨t', ht, hc⟩ := exec_completes i s
  cases h.symm.trans ht
  exact hc

/-- R54: only MASK_LOAD writes the masks. -/
theorem Completes.masks_eq (h : Completes i s t) (hi : i ≠ .maskLoad) :
    t.regs.rmask = s.regs.rmask ∧ t.regs.gmask = s.regs.gmask ∧ t.regs.bmask = s.regs.bmask := by
  cases h
  case mask => contradiction
  all_goals exact ⟨rfl, rfl, rfl⟩

/-- R40, R41: only PAL_LOAD writes the palette RAM and PAL_COUNT. -/
theorem Completes.palette_eq (h : Completes i s t) (hi : i ≠ .palLoad) :
    t.pal = s.pal ∧ t.regs.palCount = s.regs.palCount := by
  cases h
  case palFail | palOk => contradiction
  all_goals exact ⟨rfl, rfl⟩

/-- R62: only BFX and PAL_LOOKUP write RESULT. -/
theorem Completes.result_eq (h : Completes i s t) (hbfx : i ≠ .bfx) (hlookup : i ≠ .palLookup) :
    t.regs.result = s.regs.result := by
  cases h
  case result hi _ => exact absurd hi (not_or.2 ⟨hbfx, hlookup⟩)
  all_goals rfl

/-- R63: only a DECODE writes OUT_COUNT and OUTMEM. -/
theorem Completes.output_eq (h : Completes i s t) (hi : selected i s.operands = none) :
    t.regs.outCount = s.regs.outCount ∧ t.outmem = s.outmem := by
  cases h
  case badIndex ho _ _ _ => simp [hi] at ho
  case composed ho _ _ _ _ => simp [hi] at ho
  all_goals exact ⟨rfl, rfl⟩

/-- Settles O23: the registers that some instruction writes have a lemma each; no completion writes the others. -/
theorem eachInstructionWritesOnlyItsOwnRegisters : Obligations.EachInstructionWritesOnlyItsOwnRegisters := by
  intro i s t hexec
  have h := Completes.of_exec hexec
  have hmasks := h.masks_eq
  have hpalette := h.palette_eq
  have hresult := h.result_eq
  have houtput := h.output_eq
  cases h <;>
    exact ⟨rfl, rfl, rfl, rfl, rfl, rfl, rfl, rfl, rfl, rfl, rfl, rfl, rfl, rfl, rfl, rfl, rfl, rfl,
      hmasks, hpalette, hresult, houtput⟩

end Sys2Proof.Machine
end

section
/-! What a step can do, and that it keeps the invariant: an instruction's completion sets the flags, the error registers
and the engine's state itself and keeps the rest, and a host operation keeps the whole. -/

namespace Sys2Proof.Machine

variable {i : Instr} {s t : State}

/-- The state in which the host's operation runs: a unit of the pending command's latency has passed (R202), and `rest`
is what the host still has to do. -/
def State.hostReady (s : State) (rest : List HostOp) : State :=
  { s with pending := s.pending.map fun p => { p with delay := p.delay - 1 }, host := rest }

/-- The host's turn is an operation of the host, or nothing. -/
theorem State.hostTurn_does (h : s.hostTurn = .next t) : ∃ rest, HostDoes { s with host := rest } t := by
  unfold State.hostTurn at h
  split at h
  · cases h
    exact ⟨[], .read s.busData s.draws s.host⟩
  · exact ⟨_, State.hostOp_does h⟩

/-- A step is the completion of the pending command, or a turn of the host while its latency passes. -/
theorem step_does (h : step s = .next t) :
    (∃ p, s.pending = some p ∧ Completes (Sys2Proof.decodeCmd p.word) s t) ∨ ∃ rest, HostDoes (s.hostReady rest) t := by
  unfold step at h
  split at h
  · rename_i p hp
    split at h
    · exact .inl ⟨p, hp, .of_exec h⟩
    · obtain ⟨rest, hdoes⟩ := State.hostTurn_does h
      exact .inr ⟨rest, by simpa [State.hostReady, hp] using hdoes⟩
  · rename_i hp
    obtain ⟨rest, hdoes⟩ := State.hostTurn_does h
    exact .inr ⟨rest, by simpa [State.hostReady, hp] using hdoes⟩

/-! The part of the invariant that a completion and a reset do not set themselves -/

/-- The memories are canonical, and the palette RAM is whole, with reserved bytes 0 below PAL_COUNT (R40, R41). -/
structure State.StoresWf (s : State) : Prop where
  inmem_wf : s.inmem.wf
  outmem_wf : s.outmem.wf
  pal_size : s.pal.length = 256
  count_le : s.regs.palCount.toNat ≤ 256
  loaded_rsv : ∀ i < s.regs.palCount.toNat, (palEntry s.pal i).rsv = 0#8

theorem State.Inv.storesWf (h : s.Inv) : s.StoresWf := { h with }

/-- A size that a 32-bit register bounds is one the memories have (R100). -/
theorem le_memTop_of_le {n : Nat} {w : Word} (h : n ≤ w.toNat) : n ≤ Config.memTop := by
  have := w.isLt
  simp only [Config.memTop]
  omega

@[simp] theorem freeEntries_length (k d : Nat) : (freeEntries k d).length = k := by simp [freeEntries]

/-- An entry that PAL_LOAD loaded has reserved byte 0 (R251). -/
theorem palEntry_loaded_rsv {m : Memory} {a n j : Nat} {rest : List PalEntry} (hj : j < n) :
    (palEntry ((List.range n).map (entryAt m a) ++ rest) j).rsv = 0#8 := by
  simp [palEntry, List.getD_eq_getElem?_getD, List.getElem?_append_left, hj, entryAt]

theorem State.StoresWf.scrambleOut (h : s.StoresWf) {n : Nat} (hn : n ≤ Config.memTop) : (s.scrambleOut n).StoresWf :=
  { h with outmem_wf := Memory.wf_fill h.outmem_wf hn }

theorem State.StoresWf.palEmptied (h : s.StoresWf) : (palEmptied s).StoresWf :=
  { h with
    pal_size := freeEntries_length _ _
    count_le := Nat.zero_le _
    loaded_rsv := fun _ hj => absurd hj (Nat.not_lt_zero _) }

theorem State.StoresWf.palLoaded (h : s.StoresWf) {n : Nat} (hn : n ≤ 256) (a : Nat) : (palLoaded n a s).StoresWf := by
  have hcount : (BitVec.ofNat 9 n).toNat = n := by rw [BitVec.toNat_ofNat]; omega
  exact
    { h with
      pal_size := by simp [Config.palMax, hn]
      count_le := hcount.trans_le hn
      loaded_rsv := fun j hj => palEntry_loaded_rsv (hj.trans_eq hcount) }

/-! Completion -/

theorem State.StoresWf.succeed (h : s.StoresWf) (hrst : s.rst = false) : s.succeed.Inv :=
  { h with
    code_produced := .inl rfl
    err_iff_code := by simp
    no_detail := fun _ => ⟨rfl, rfl, rfl⟩
    busy_cleared := by simp
    snapshot_eq := by simp
    cursor_iff := by simp
    held_in_reset := by simp [hrst] }

theorem State.StoresWf.raise (h : s.StoresWf) (hrst : s.rst = false) {e : CmdError} (he : e.code ≠ .malformedHeader) :
    (s.raise e).Inv :=
  { h with
    code_produced := .inr (Machine.code_produced he)
    err_iff_code := by simp [code_ne_zero]
    no_detail := by simp
    busy_cleared := by simp
    snapshot_eq := by simp
    cursor_iff := by simp
    held_in_reset := by simp [hrst] }

/-- A command that completes outside reset leaves a good state. -/
theorem Completes.inv (hc : Completes i s t) (h : s.StoresWf) (hrst : s.rst = false) : t.Inv := by
  cases hc with
  | nop => exact h.succeed hrst
  | fail e hcode => exact h.raise hrst hcode
  | palFail e hcode => exact h.palEmptied.raise hrst hcode
  | palOk _ hn => exact (h.palLoaded hn _).succeed hrst
  | mask => exact State.StoresWf.succeed { h with } hrst
  | result => exact State.StoresWf.succeed { h with } hrst
  | badIndex o _ e he hn => exact (h.scrambleOut (le_memTop_of_le hn)).raise hrst (by simp [he])
  | composed o _ m _ hm => exact State.StoresWf.succeed { h with outmem_wf := hm h.outmem_wf } hrst

/-! The host's operations -/

theorem State.Inv.hostReady (h : s.Inv) (rest : List HostOp) : (s.hostReady rest).Inv :=
  { h with
    busy_cleared := fun hb => h.busy_cleared (by simpa [State.busy, State.hostReady] using hb)
    snapshot_eq := fun p hp => by
      obtain ⟨q, hq, rfl⟩ := Option.map_eq_some_iff.1 hp
      exact h.snapshot_eq q hq
    cursor_iff := by simpa [State.hostReady, and_assoc] using h.cursor_iff
    held_in_reset := fun hr => by simpa [State.hostReady] using h.held_in_reset hr }

/-- A command accepted while idle starts with every flag and error register clear (R200). -/
theorem State.Inv.accept (h : s.Inv) (hrst : s.rst = false) (v : Word) (d n : Nat) :
    State.Inv { s.accept v d with draws := n } :=
  { h with
    code_produced := .inl rfl
    err_iff_code := by simp
    no_detail := fun _ => ⟨rfl, rfl, rfl⟩
    busy_cleared := fun _ => ⟨rfl, rfl, rfl, rfl⟩
    snapshot_eq := fun p hp => by
      cases hp
      exact ⟨rfl, rfl⟩
    cursor_iff := by simp
    held_in_reset := by simp [hrst] }

/-- A register write stores neither in PAL_COUNT nor in the error registers (R32). -/
theorem Regs.write_frame (v : Word) (regs : Regs) (r : Reg) :
    (regs.write v r).palCount = regs.palCount ∧ (regs.write v r).err = regs.err ∧
    (regs.write v r).errcode = regs.errcode ∧ (regs.write v r).errinfo = regs.errinfo ∧
    (regs.write v r).errrow = regs.errrow ∧ (regs.write v r).errcol = regs.errcol := by
  cases r <;> exact ⟨rfl, rfl, rfl, rfl, rfl, rfl⟩

theorem State.Inv.write (h : s.Inv) (hrst : s.rst = false) (hp : s.pending = none) (v : Word) (r : Reg) :
    State.Inv { s with regs := s.regs.write v r } := by
  obtain ⟨hcount, herr, hcode, hinfo, hrow, hcol⟩ := s.regs.write_frame v r
  exact
    { h with
      count_le := by simpa [hcount] using h.count_le
      loaded_rsv := by simpa [hcount] using h.loaded_rsv
      code_produced := by simpa [hcode] using h.code_produced
      err_iff_code := by simpa [herr, hcode] using h.err_iff_code
      no_detail := by simpa [herr, hinfo, hrow, hcol] using h.no_detail
      busy_cleared := by simp [State.busy, hp]
      snapshot_eq := by simp [hp]
      held_in_reset := by simp [hrst] }

/-- A reset leaves the stores good: the palette is unspecified but empty, and OUTMEM is at most rewritten below
OUT_LEN (R460, R462). -/
theorem State.StoresWf.resetBlock (h : s.StoresWf) : s.resetBlock.StoresWf := by
  have hscrambled := h.scrambleOut (le_memTop_of_le (le_refl s.regs.outLen.toNat))
  unfold State.resetBlock
  split
  · exact { hscrambled.palEmptied with }
  · exact { h.palEmptied with }

/-- A block held in reset meets the invariant (R461). -/
theorem State.StoresWf.reset (h : s.StoresWf) : State.Inv { s.resetBlock with rst := true } :=
  { h.resetBlock with
    code_produced := by simp [Regs.reset]
    err_iff_code := by simp [Regs.reset]
    no_detail := by simp [Regs.reset]
    busy_cleared := by simp [State.busy]
    snapshot_eq := by simp
    cursor_iff := by simp
    held_in_reset := by simp }

/-- Every host operation keeps the invariant. -/
theorem HostDoes.inv (hd : HostDoes s t) (h : s.Inv) : t.Inv := by
  cases hd with
  | read => exact { h with }
  | accept v hrst => exact h.accept hrst v _ _
  | write r v hrst hp => exact h.write hrst hp v r
  | inb a b ha => exact { h with inmem_wf := Memory.wf_write h.inmem_wf ha }
  | outb => exact { h with }
  | reset => exact h.storesWf.reset
  | release => exact { h with held_in_reset := nofun }

/-- A busy block is not in reset (R461). -/
theorem State.Inv.rst_of_pending (h : s.Inv) {p : Pending} (hp : s.pending = some p) : s.rst = false := by
  by_contra hrst
  have := (h.held_in_reset (by simpa using hrst)).2
  simp [hp] at this

/-- Settles O11: a step is a completion, which needs only the stores to be good before it, or an operation of the host,
which keeps the invariant. -/
theorem stepKeepsTheInvariant : Obligations.StepKeepsTheInvariant := by
  intro s t h hstep
  rcases step_does hstep with ⟨p, hp, hc⟩ | ⟨rest, hd⟩
  · exact hc.inv h.storesWf (h.rst_of_pending hp)
  · exact hd.inv (h.hostReady rest)

end Sys2Proof.Machine
end

section
/-! The host's side of the two memories and of the register bus (`20_memory.md` R100, R110, R114): the operations that
go on, and what a read returns. -/

namespace Sys2Proof.Machine

variable {s : State}

/-- R110: only an aligned 32-bit access is inside the block's interface. -/
theorem mmioOk_iff {off : Word} {size : Nat} : mmioOk off size = true ↔ size = 4 ∧ off.toNat % 4 = 0 := by
  simp [mmioOk]

/-- R31, R32: outside reset a read at a register's offset returns that register. -/
theorem State.mmioRead_offset (hrst : s.rst = false) (r : Reg) :
    s.mmioRead r.offset = { s with busData := s.readReg r } := by
  simp [State.mmioRead, hrst]

/-- Settles O30: a read draws a free word or only returns data, and an odd access is outside the interface. -/
theorem mmioReadsChangeNothingAndOddAccessesAreRefused : Obligations.MmioReadsChangeNothingAndOddAccessesAreRefused := by
  refine fun s => ⟨fun off => ?_, State.mmioRead_offset, rfl, fun off size v hodd => ?_⟩
  · rcases s.mmioRead_cases off with h | ⟨d, h⟩
    · exact ⟨_, _, h⟩
    · exact ⟨d, s.draws, h⟩
  · have hbad : ¬mmioOk off size = true := by rw [mmioOk_iff]; omega
    exact ⟨if_neg hbad, if_neg hbad⟩

/-- Settles O60: the byte is free exactly where the block is busy and the address below OUT_LEN. -/
theorem outmemReadsGiveTheStoredByte : Obligations.OutmemReadsGiveTheStoredByte := by
  intro s a
  refine ⟨fun htop => if_pos htop, fun htop => ⟨fun hstored => ?_, fun hbusy hlow => ?_⟩⟩
  · have hnot : ¬(s.busy && decide (a.toNat < s.regs.outLen.toNat)) = true := by
      rcases hstored with hidle | hhigh
      · simp [State.busy, hidle]
      · simp [Nat.not_lt.2 hhigh]
    exact (if_neg htop).trans (if_neg hnot)
  · have hfree : (s.busy && decide (a.toNat < s.regs.outLen.toNat)) = true := by
      simp [State.busy, Option.isSome_iff_ne_none, hbusy, hlow]
    exact ⟨_, _, (if_neg htop).trans (if_pos hfree)⟩

/-- A host operation goes on exactly inside the block's interface. -/
theorem State.hostOp_next_iff {op : HostOp} : (∃ t, s.hostOp op = .next t) ↔ op.inInterface s = true := by
  cases op <;> simp only [State.hostOp, HostOp.inInterface]
  case wr off size v =>
    unfold State.hostWrite
    cases mmioOk off size <;> cases s.startsOverlap off v <;> simp
  case rd off size => cases mmioOk off size <;> simp
  case inb a b =>
    unfold State.hostWriteIn
    by_cases htop : a.toNat = Config.memTop <;> cases s.readsByte a.toNat <;> simp [htop]
  case outb a =>
    unfold State.hostReadOut
    by_cases htop : a.toNat = Config.memTop
    · simp [htop]
    · by_cases hfree : (s.busy && decide (a.toNat < s.regs.outLen.toNat)) = true <;> simp [htop, hfree]
  all_goals simp

/-- The interface is judged the same after a unit of the latency has passed: it looks at the registers and at the
pending word with its snapshot. -/
theorem HostOp.inInterface_hostReady (op : HostOp) (rest : List HostOp) :
    op.inInterface (s.hostReady rest) = op.inInterface s := by
  have hreads : (s.hostReady rest).readsByte = s.readsByte := by
    funext a
    cases hp : s.pending <;> simp [State.readsByte, State.commandReads, State.hostReady, hp]
  have hstarts : ∀ off v, (s.hostReady rest).startsOverlap off v = s.startsOverlap off v := by
    intro off v
    simp [State.startsOverlap, State.busy, State.hostReady]
  cases op <;> simp only [HostOp.inInterface, hreads, hstarts]

/-- In the engine's turn a step completes the pending command. -/
theorem step_of_engineTurn (h : s.engineTurn = true) : ∃ i, step s = exec i s := by
  unfold State.engineTurn at h
  split at h
  · rename_i p hp
    have hturn : p.delay = 0 ∧ s.resetNext = false := by simpa using h
    exact ⟨Sys2Proof.decodeCmd p.word, by simp only [step, hp, hturn, and_self, if_true]⟩
  · cases h

/-- In every other turn a unit of the latency passes and the host has its turn. -/
theorem step_of_not_engineTurn (h : s.engineTurn = false) : step s = (s.hostReady s.host).hostTurn := by
  unfold step
  cases hp : s.pending with
  | none =>
    have hready : s.hostReady s.host = s := by
      simp only [State.hostReady, hp, Option.map_none]
      rw [← hp]
    rw [hready]
  | some p =>
    have hturn : ¬(p.delay = 0 ∧ s.resetNext = false) := by simpa [State.engineTurn, hp] using h
    simp [hturn, State.hostReady, hp]

/-- The host's turn goes on exactly where the operation it makes, if any, is inside the interface. -/
theorem State.hostTurn_next_iff :
    (∃ t, (s.hostReady s.host).hostTurn = .next t) ↔ ∀ op rest, s.host = op :: rest → op.inInterface s = true := by
  cases hhost : s.host with
  | nil => simp [State.hostTurn, State.hostReady]
  | cons op rest =>
    have hop : (s.hostReady (op :: rest)).hostTurn = (s.hostReady rest).hostOp op := rfl
    rw [hop, State.hostOp_next_iff, op.inInterface_hostReady]
    simp

/-- Settles O13: the engine's turn completes the command, and the host's goes on exactly inside the interface. -/
theorem stepGoesOnExactlyFromSafeStates : Obligations.StepGoesOnExactlyFromSafeStates := by
  intro s
  unfold State.Safe
  cases hturn : s.engineTurn with
  | true =>
    obtain ⟨i, hstep⟩ := step_of_engineTurn hturn
    obtain ⟨t, ht, -⟩ := exec_completes i s
    exact ⟨fun _ => .inl rfl, fun _ => ⟨t, hstep.trans ht⟩⟩
  | false => simp [step_of_not_engineTurn hturn, State.hostTurn_next_iff]

end Sys2Proof.Machine
end

section
/-! What the commands read of INMEM (`20_memory.md` R104): two INMEMs with the same bytes in a command's region give the
same checks and the same data. -/

namespace Sys2Proof.Machine

variable {m m' : Memory} {a n : Nat}

/-- Two memories hold the same bytes at `a .. a + n - 1`. -/
def Memory.SameOn (m m' : Memory) (a n : Nat) : Prop := ∀ b, a ≤ b → b < a + n → m.read b = m'.read b

theorem Memory.SameOn.mono (h : m.SameOn m' a n) {b k : Nat} (hlow : a ≤ b) (hhigh : b + k ≤ a + n) :
    m.SameOn m' b k := fun c hb hc => h c (hlow.trans hb) (hc.trans_le hhigh)

theorem Memory.SameOn.readLE_eq (h : m.SameOn m' a n) : m.readLE a n = m'.readLE a n :=
  Memory.readLE_congr fun k hk => h (a + k) (by omega) (by omega)

theorem Memory.SameOn.word16_eq (h : m.SameOn m' a 2) : m.word16 a = m'.word16 a := by
  rw [Memory.word16, h.readLE_eq, Memory.word16]

theorem Memory.SameOn.word32_eq (h : m.SameOn m' a 4) : m.word32 a = m'.word32 a := by
  rw [Memory.word32, h.readLE_eq, Memory.word32]

/-- R104: the bounds check passes exactly where the range lies below IN_LEN. -/
theorem checkRange_eq_none {l : Word} : checkRange a n l = none ↔ a + n ≤ l.toNat := by
  simp [checkRange]

theorem firstSuch_congr {p q : Nat → Bool} (h : ∀ i < n, p i = q i) : firstSuch p n = firstSuch q n := by
  induction n with
  | zero => rfl
  | succ n ih => rw [firstSuch, firstSuch, ih fun i hi => h i (by omega), h n (by omega)]

theorem collect_congr {ε α : Type} {f g : Nat → Except ε α} (h : ∀ i < n, f i = g i) : collect f n = collect g n := by
  induction n with
  | zero => rfl
  | succ n ih => rw [collect, collect, ih fun i hi => h i (by omega), h n (by omega)]

/-- MASK_LOAD's three words (R210). -/
theorem Memory.SameOn.maskWords_eq (h : m.SameOn m' a 12) :
    m.word32 a = m'.word32 a ∧ m.word32 (a + 4) = m'.word32 (a + 4) ∧ m.word32 (a + 8) = m'.word32 (a + 8) :=
  ⟨(h.mono (by omega) (by omega)).word32_eq, (h.mono (by omega) (by omega)).word32_eq,
    (h.mono (by omega) (by omega)).word32_eq⟩

/-- The four bytes of a palette group in the region (R105, R250). -/
theorem Memory.SameOn.paletteGroup_eq (h : m.SameOn m' a n) {i : Nat} (hi : i < n / 4) :
    entryAt m a i = entryAt m' a i ∧ reservedAt m a i = reservedAt m' a i := by
  have hbyte : ∀ k < 4, m.read (a + 4 * i + k) = m'.read (a + 4 * i + k) := fun k hk => h _ (by omega) (by omega)
  have hblue : m.read (a + 4 * i) = m'.read (a + 4 * i) := hbyte 0 (by omega)
  exact ⟨by simp only [entryAt, hblue, hbyte 1, hbyte 2, Nat.reduceLT], hbyte 3 (by omega)⟩

/-- PAL_LOAD's checks pass only for a region below IN_LEN (R252). -/
theorem extent_of_palLoadError {o : Regs} (h : palLoadError o m = none) :
    o.palBase.toNat + o.palLen.toNat ≤ o.inLen.toNat := by
  refine checkRange_eq_none.1 ?_
  simp only [palLoadError] at h
  split at h
  · cases h
  · assumption

/-- PAL_LOAD's checks read the region only, and only where it lies below IN_LEN (R251 to R253). -/
theorem palLoadError_congr {o : Regs} (h : m.SameOn m' 0 o.inLen.toNat) : palLoadError o m = palLoadError o m' := by
  simp only [palLoadError]
  cases hrange : checkRange o.palBase.toNat o.palLen.toNat o.inLen with
  | some e => rfl
  | none =>
    have hfits := checkRange_eq_none.1 hrange
    have hregion : m.SameOn m' o.palBase.toNat o.palLen.toNat := h.mono (by omega) (by omega)
    have hsearch : firstSuch (fun i => reservedAt m o.palBase.toNat i != 0#8) (o.palLen.toNat / 4) =
        firstSuch (fun i => reservedAt m' o.palBase.toNat i != 0#8) (o.palLen.toNat / 4) :=
      firstSuch_congr fun i hi => by rw [(hregion.paletteGroup_eq hi).2]
    simp only [hsearch]
    cases hfirst : firstSuch (fun i => reservedAt m' o.palBase.toNat i != 0#8) (o.palLen.toNat / 4) with
    | none => rfl
    | some i => simp only [(hregion.paletteGroup_eq (firstSuch_some hfirst).1).2]

section Pixels
variable {o : Regs} {pal : List PalEntry} {sr c : Nat}

/-- The bits of a pixel of the padded row lie in the stored row (R20, R320). -/
theorem pixelBits_le_rowBits (hc : c < o.paddedWidth) : (c + 1) * o.bpp.toNat ≤ o.rowBytes * 8 :=
  (Nat.mul_le_mul_right _ hc).trans (Nat.div_mul_le_self _ _)

/-- A pixel is unpacked from the bytes of its stored row (R321, R326 to R333). -/
theorem unpackPixel_congr (hdepth : o.bpp ∈ [0#16, 1#16, 4#16, 8#16, 16#16, 24#16, 32#16])
    (hrow : m.SameOn m' (rowStart o sr) o.rowBytes) (hc : c < o.paddedWidth) :
    unpackPixel o pal m sr c = unpackPixel o pal m' sr c := by
  have hbits := pixelBits_le_rowBits hc
  simp only [List.mem_cons, List.not_mem_nil, or_false] at hdepth
  rcases hdepth with h | h | h | h | h | h | h <;> simp only [h, BitVec.toNat_ofNat, Nat.reducePow, Nat.reduceMod] at hbits
  · simp [Regs.paddedWidth, h] at hc
  · rw [unpackPixel_1 h, unpackPixel_1 h, unpackPixel1, index1, hrow _ (by omega) (by omega), unpackPixel1, index1]
  · rw [unpackPixel_4 h, unpackPixel_4 h, unpackPixel4, index4, hrow _ (by omega) (by omega), unpackPixel4, index4]
  · rw [unpackPixel_8 h, unpackPixel_8 h, unpackPixel8, index8, hrow _ (by omega) (by omega), unpackPixel8, index8]
  · have hword := (hrow.mono (b := rowStart o sr + 2 * c) (k := 2) (by omega) (by omega)).word16_eq
    simp only [unpackPixel_16 h, unpackPixel16bf, unpackPixel16x555, hword]
  · have hbyte : ∀ k < 3, m.read (rowStart o sr + 3 * c + k) = m'.read (rowStart o sr + 3 * c + k) :=
      fun k hk => hrow _ (by omega) (by omega)
    have hblue : m.read (rowStart o sr + 3 * c) = m'.read (rowStart o sr + 3 * c) := hbyte 0 (by omega)
    simp only [unpackPixel_24 h, unpackPixel24, hblue, hbyte 1, hbyte 2, Nat.reduceLT]
  · have hword := (hrow.mono (b := rowStart o sr + 4 * c) (k := 4) (by omega) (by omega)).word32_eq
    simp only [unpackPixel_32 h, unpackPixel32bf, unpackPixel32rgb, hword]

/-- A stored row lies in the pixel data (R228, R321). -/
theorem rowStart_add_rowBytes_le (hsr : sr < o.rowCount) :
    rowStart o sr + o.rowBytes ≤ o.pixBase.toNat + o.rowBytes * o.rowCount := by
  have hrows : (sr + 1) * o.rowBytes ≤ o.rowCount * o.rowBytes := Nat.mul_le_mul_right _ hsr
  rw [Nat.succ_mul, Nat.mul_comm o.rowCount] at hrows
  unfold rowStart
  omega

/-- Where DECODE's checks pass, the pixel sequence depends on INMEM bytes below IN_LEN only (R228). -/
theorem unpackAll_congr (hd : decodeError o = none) (h : m.SameOn m' 0 o.inLen.toNat) :
    unpackAll o pal m = unpackAll o pal m' := by
  obtain ⟨-, -, hdepth, -, -, -, hfits⟩ := decodeError_eq_none_iff.1 hd
  have hrows : collect (unpackRow o pal m) o.rowCount = collect (unpackRow o pal m') o.rowCount := by
    refine collect_congr fun sr hsr => collect_congr fun c hc => unpackPixel_congr hdepth ?_ hc
    exact h.mono (Nat.zero_le _) (by have := rowStart_add_rowBytes_le hsr; omega)
  rw [unpackAll, hrows, unpackAll]

end Pixels

end Sys2Proof.Machine
end

section
/-! What an instruction takes from the two memories and what it leaves in them (`20_memory.md` R101, R104): its outcome
is the same for every INMEM with the same bytes below IN_LEN and for every OUTMEM, but for the OUTMEM it leaves. -/

namespace Sys2Proof.Machine

open Sys2Proof.Spec

variable {i : Instr} {s t : State} {o : Regs} {m : Memory}

/-- The machine with other memories beside the block. -/
def State.withMemories (m out : Memory) (s : State) : State := { s with inmem := m, outmem := out }

@[simp] theorem State.withMemories_operands (m out : Memory) (s : State) : (s.withMemories m out).operands = s.operands :=
  rfl

/-- What an instruction does to OUTMEM, as a function of what OUTMEM held: nothing, or, for a DECODE, the bytes below
`need` rewritten whatever they were (R227, R421). -/
inductive ActsOnOutmem (i : Instr) (s : State) (f : Memory → Memory) : Prop
  | keeps (h : ∀ out, f out = out)
  | rewrites (o : Regs) (hsel : selected i s.operands = some o)
      (below : ∀ out out' a, a < o.need → (f out).read a = (f out').read a)
      (above : ∀ out a, o.need ≤ a → (f out).read a = out.read a)

/-! The completion of each command, by what its checks answer (R201) -/

theorem execPalLoad_of_error {e : CmdError} (h : palLoadError s.operands s.inmem = some e) :
    execPalLoad s = .next ((palEmptied s).raise e) := by
  simp only [execPalLoad, h]

theorem execPalLoad_of_ok (h : palLoadError s.operands s.inmem = none) :
    execPalLoad s = .next (palLoaded (s.operands.palLen.toNat / 4) s.operands.palBase.toNat s).succeed := by
  simp only [execPalLoad, h]

theorem execMaskLoad_of_error {e : CmdError} (h : checkRange s.operands.maskBase.toNat 12 s.operands.inLen = some e) :
    execMaskLoad s = .next (s.raise e) := by
  simp only [execMaskLoad, h]

/-- The state in which MASK_LOAD succeeds with its block at `a` (R210). -/
abbrev masksLoaded (a : Nat) (s : State) : State :=
  { s with regs := { s.regs with rmask := s.inmem.word32 a, gmask := s.inmem.word32 (a + 4),
                                 bmask := s.inmem.word32 (a + 8) } }

theorem execMaskLoad_of_ok (h : checkRange s.operands.maskBase.toNat 12 s.operands.inLen = none) :
    execMaskLoad s = .next (masksLoaded s.operands.maskBase.toNat s).succeed := by
  simp only [execMaskLoad, h]

/-- The state in which BFX and PAL_LOOKUP succeed with the value `v` (R260, R295). -/
abbrev resultSet (v : Word) (s : State) : State := { s with regs := { s.regs with result := v } }

theorem execBfx_of_error {e : CmdError} (h : checkMasks s.operands = some e) : execBfx s = .next (s.raise e) := by
  simp only [execBfx, h]

theorem execBfx_of_ok (h : checkMasks s.operands = none) :
    execBfx s = .next (resultSet (bfx s.operands.arg s.operands.rmask s.operands.gmask s.operands.bmask) s).succeed := by
  simp only [execBfx, h]

theorem execPalLookup_of_error {e : CmdError}
    (h : lookup s.operands.palCount s.pal s.operands.arg.toNat 0 0 = .error e) :
    execPalLookup s = .next (s.raise e) := by
  simp only [execPalLookup, h]

theorem execPalLookup_of_ok {p : Word} (h : lookup s.operands.palCount s.pal s.operands.arg.toNat 0 0 = .ok p) :
    execPalLookup s = .next (resultSet p s).succeed := by
  simp only [execPalLookup, h]

theorem runDecode_of_failed_check {e : CmdError} (h : decodeError o = some e) : runDecode o s = .next (s.raise e) := by
  simp only [runDecode, h]

theorem runDecode_of_failed_pixel {e : CmdError} (hd : decodeError o = none)
    (hu : unpackAll o s.pal s.inmem = .error e) : runDecode o s = .next ((s.scrambleOut o.need).raise e) := by
  simp only [runDecode, hd, hu]

/-- What a DECODE that succeeds leaves in OUTMEM (R227): with 0 bpp, what it held (R325). -/
def decodedOut (o : Regs) (pix : List (List Word)) (out : Memory) : Memory :=
  if o.bpp = 0#16 then out else compose o pix out

/-- The state in which DECODE succeeds with the pixels `pix` (R227). -/
abbrev decoded (o : Regs) (pix : List (List Word)) (s : State) : State :=
  { s with outmem := decodedOut o pix s.outmem, regs := { s.regs with outCount := BitVec.ofNat 32 o.need } }

theorem runDecode_of_ok {pix : List (List Word)} (hd : decodeError o = none)
    (hu : unpackAll o s.pal s.inmem = .ok pix) : runDecode o s = .next (decoded o pix s).succeed := by
  simp only [runDecode, hd, hu]
  rfl

/-- The bytes that a successful DECODE writes do not depend on what OUTMEM held. -/
theorem decodedOut_below (o : Regs) (pix : List (List Word)) (out out' : Memory) {a : Nat} (ha : a < o.need) :
    (decodedOut o pix out).read a = (decodedOut o pix out').read a := by
  unfold decodedOut
  split <;> rename_i h0
  · simp [Regs.need, h0] at ha
  · have hin : a < 4 * (o.imageWidth * o.rowCount) := by
      simp only [Regs.need, h0, if_false] at ha
      omega
    rw [read_compose, read_compose, if_pos hin, if_pos hin]

/-- A successful DECODE writes only the bytes below `need`. -/
theorem decodedOut_above (o : Regs) (pix : List (List Word)) (out : Memory) {a : Nat} (ha : o.need ≤ a) :
    (decodedOut o pix out).read a = out.read a := by
  unfold decodedOut
  split <;> rename_i h0
  · rfl
  · have hout : ¬a < 4 * (o.imageWidth * o.rowCount) := by
      simp only [Regs.need, h0, if_false] at ha
      omega
    rw [read_compose, if_neg hout]

/-! The same instruction beside other memories -/

/-- PAL_LOAD's outcome depends on INMEM below IN_LEN alone (R252). -/
theorem execPalLoad_withMemories (hm : m.SameOn s.inmem 0 s.operands.inLen.toNat) :
    ∃ t, execPalLoad s = .next t ∧ ∀ out, execPalLoad (s.withMemories m out) = .next (t.withMemories m out) := by
  have hcheck : palLoadError s.operands m = palLoadError s.operands s.inmem := palLoadError_congr hm
  cases hp : palLoadError s.operands s.inmem with
  | some e =>
    exact ⟨_, execPalLoad_of_error hp, fun out => execPalLoad_of_error (s := s.withMemories m out) (hcheck.trans hp)⟩
  | none =>
    refine ⟨_, execPalLoad_of_ok hp,
      fun out => (execPalLoad_of_ok (s := s.withMemories m out) (hcheck.trans hp)).trans ?_⟩
    have hfits := extent_of_palLoadError hp
    have hregion : m.SameOn s.inmem s.operands.palBase.toNat s.operands.palLen.toNat := hm.mono (by omega) (by omega)
    have hentries : (List.range (s.operands.palLen.toNat / 4)).map (entryAt m s.operands.palBase.toNat) =
        (List.range (s.operands.palLen.toNat / 4)).map (entryAt s.inmem s.operands.palBase.toNat) :=
      List.map_congr_left fun k hk => (hregion.paletteGroup_eq (List.mem_range.1 hk)).1
    simp only [State.withMemories, State.operands, State.succeed] at hentries ⊢
    rw [hentries]

/-- MASK_LOAD's outcome depends on INMEM below IN_LEN alone (R210). -/
theorem execMaskLoad_withMemories (hm : m.SameOn s.inmem 0 s.operands.inLen.toNat) :
    ∃ t, execMaskLoad s = .next t ∧ ∀ out, execMaskLoad (s.withMemories m out) = .next (t.withMemories m out) := by
  cases hr : checkRange s.operands.maskBase.toNat 12 s.operands.inLen with
  | some e => exact ⟨_, execMaskLoad_of_error hr, fun out => execMaskLoad_of_error (s := s.withMemories m out) hr⟩
  | none =>
    refine ⟨_, execMaskLoad_of_ok hr, fun out => (execMaskLoad_of_ok (s := s.withMemories m out) hr).trans ?_⟩
    have hfits := checkRange_eq_none.1 hr
    have hblock : m.SameOn s.inmem s.operands.maskBase.toNat 12 := hm.mono (by omega) (by omega)
    obtain ⟨hred, hgreen, hblue⟩ := hblock.maskWords_eq
    simp only [masksLoaded, State.withMemories_operands]
    simp only [State.withMemories, hred, hgreen, hblue]
    rfl

/-- BFX looks at no memory (R295). -/
theorem execBfx_withMemories :
    ∃ t, execBfx s = .next t ∧ ∀ out, execBfx (s.withMemories m out) = .next (t.withMemories m out) := by
  cases hc : checkMasks s.operands with
  | some e => exact ⟨_, execBfx_of_error hc, fun out => execBfx_of_error (s := s.withMemories m out) hc⟩
  | none => exact ⟨_, execBfx_of_ok hc, fun out => execBfx_of_ok (s := s.withMemories m out) hc⟩

/-- PAL_LOOKUP looks at no memory but the palette RAM (R260). -/
theorem execPalLookup_withMemories :
    ∃ t, execPalLookup s = .next t ∧ ∀ out, execPalLookup (s.withMemories m out) = .next (t.withMemories m out) := by
  cases hl : lookup s.operands.palCount s.pal s.operands.arg.toNat 0 0 with
  | error e => exact ⟨_, execPalLookup_of_error hl, fun out => execPalLookup_of_error (s := s.withMemories m out) hl⟩
  | ok p => exact ⟨_, execPalLookup_of_ok hl, fun out => execPalLookup_of_ok (s := s.withMemories m out) hl⟩

/-- A command other than DECODE completes alike beside any OUTMEM, which it keeps. -/
theorem exec_withMemories_of_not_decode (hsel : selected i s.operands = none)
    (hm : m.SameOn s.inmem 0 s.operands.inLen.toNat) :
    ∃ t, exec i s = .next t ∧ ∀ out, exec i (s.withMemories m out) = .next (t.withMemories m out) := by
  cases i <;> simp only [selected, reduceCtorEq] at hsel
  case nop | illegal => exact ⟨_, rfl, fun _ => rfl⟩
  case palLoad => exact execPalLoad_withMemories hm
  case maskLoad => exact execMaskLoad_withMemories hm
  case bfx => exact execBfx_withMemories
  case palLookup => exact execPalLookup_withMemories

/-- A DECODE completes alike beside any OUTMEM, but for the OUTMEM it leaves. -/
theorem runDecode_withMemories (hsel : selected i s.operands = some o)
    (hm : m.SameOn s.inmem 0 s.operands.inLen.toNat) :
    ∃ t f, runDecode o s = .next t ∧ ActsOnOutmem i s f ∧ t.outmem = f s.outmem ∧
      ∀ out, runDecode o (s.withMemories m out) = .next (t.withMemories m (f out)) := by
  obtain ⟨-, hin, -⟩ := selected_keeps hsel
  cases hd : decodeError o with
  | some e =>
    exact ⟨_, id, runDecode_of_failed_check hd, .keeps fun _ => rfl, rfl, fun _ => runDecode_of_failed_check hd⟩
  | none =>
    have hpixels : unpackAll o s.pal m = unpackAll o s.pal s.inmem := unpackAll_congr hd (hin ▸ hm)
    cases hu : unpackAll o s.pal s.inmem with
    | error e =>
      refine ⟨_, fun out => out.fill (fun k => Config.freeByte (s.draws + k)) o.need, runDecode_of_failed_pixel hd hu,
        .rewrites o hsel (fun out out' a ha => ?_) (fun out a ha => ?_), rfl,
        fun out => runDecode_of_failed_pixel (s := s.withMemories m out) hd (hpixels.trans hu)⟩
      · simp [ha]
      · simp [Nat.not_lt.2 ha]
    | ok pix =>
      exact ⟨_, decodedOut o pix, runDecode_of_ok hd hu,
        .rewrites o hsel (fun out out' _ => decodedOut_below o pix out out') (fun out _ => decodedOut_above o pix out), rfl,
        fun out => runDecode_of_ok (s := s.withMemories m out) hd (hpixels.trans hu)⟩

/-- R101, R104: an instruction that completes does so in the same way beside any OUTMEM and any INMEM with the same bytes
below IN_LEN; what it leaves in OUTMEM is a function of what OUTMEM held. -/
theorem exec_withMemories (hm : m.SameOn s.inmem 0 s.operands.inLen.toNat) (h : exec i s = .next t) :
    ∃ f, ActsOnOutmem i s f ∧ t.outmem = f s.outmem ∧
      ∀ out, exec i (s.withMemories m out) = .next (t.withMemories m (f out)) := by
  cases hsel : selected i s.operands with
  | none =>
    obtain ⟨t', ht', hother⟩ := exec_withMemories_of_not_decode hsel hm
    cases h.symm.trans ht'
    exact ⟨id, .keeps fun _ => rfl, ((Completes.of_exec h).output_eq hsel).2, hother⟩
  | some o =>
    obtain ⟨t', f, ht', hacts, hout, hother⟩ := runDecode_withMemories hsel hm
    cases h.symm.trans ((exec_selected hsel).trans ht')
    exact ⟨f, hacts, hout, fun out => (exec_selected (s := s.withMemories m out) hsel).trans (hother out)⟩

/-- No instruction writes INMEM (R101). -/
theorem Completes.inmem_eq (h : Completes i s t) : t.inmem = s.inmem := by cases h <;> rfl

/-- Settles O20: the instruction runs beside the other OUTMEM as `exec_withMemories` says, with INMEM as it is. -/
theorem blockNeitherWritesInmemNorReadsOutmem : Obligations.BlockNeitherWritesInmemNorReadsOutmem := by
  intro i s t h
  have hin : t.inmem = s.inmem := (Completes.of_exec h).inmem_eq
  obtain ⟨f, hacts, hout, hother⟩ := exec_withMemories (m := s.inmem) (fun _ _ _ => rfl) h
  have kept : ∀ out, t.withMemories s.inmem out = { t with outmem := out } := fun out => by
    rw [← hin, State.withMemories]
  refine ⟨hin, fun out => ⟨f out, (hother out).trans (congrArg _ (kept (f out))), ?_⟩⟩
  rw [hout]
  cases hacts with
  | keeps hkeeps => exact .inl fun a => by simp only [hkeeps, and_self]
  | rewrites o hsel below above =>
    exact .inr ⟨o, hsel, below out s.outmem, fun a ha => ⟨above out a ha, above s.outmem a ha⟩⟩

/-- Settles O21: the instruction runs beside the other INMEM as `exec_withMemories` says, with OUTMEM as it is. -/
theorem commandsReadOnlyBelowInLen : Obligations.CommandsReadOnlyBelowInLen := by
  intro i s t m hm h
  have hsame : m.SameOn s.inmem 0 s.operands.inLen.toNat := fun a _ ha => hm a (by omega)
  obtain ⟨f, -, hout, hother⟩ := exec_withMemories hsame h
  have := hother s.outmem
  rwa [← hout] at this

/-- Settles O22: only the bytes below `need` are written, and a DECODE writes only where they fit in OUT_LEN. -/
theorem commandsWriteOnlyBelowOutLen : Obligations.CommandsWriteOnlyBelowOutLen := by
  intro i s t a ha h
  have beyond : ∀ {o}, selected i s.operands = some o → o.need ≤ o.outLen.toNat → o.need ≤ a := fun hsel hn =>
    hn.trans ((selected_keeps hsel).1 ▸ ha)
  cases Completes.of_exec h
  case badIndex o hsel e _ hn => simp [Nat.not_lt.2 (beyond hsel hn)]
  case composed o hsel m' hn _ hr => exact hr a (beyond hsel hn)
  all_goals rfl

end Sys2Proof.Machine
end

section
/-! Words of an encoding format and the instructions they stand for (`30_encoding.md` R140 to R146), in both directions. -/

namespace Sys2Proof

/-! Words inside a field (R140) -/

/-- A word with no bit outside the field is what the field keeps of it. -/
theorem and_field_of_inside {w field : Word} (h : w &&& ~~~field = 0#32) : w &&& field = w := by
  have hsplit : (w &&& field) ||| (w &&& ~~~field) = w := by
    rw [← BitVec.and_or_distrib_left, BitVec.or_not_self, BitVec.and_allOnes]
  rwa [h, BitVec.or_zero] at hsplit

/-- A word inside a one-bit field is that bit or zero. -/
theorem bit_of_inside {w : Word} {k : Nat} (h : w &&& ~~~BitVec.twoPow 32 k = 0#32) :
    (if w.getLsbD k then BitVec.twoPow 32 k else 0#32) = w := by
  rw [← BitVec.and_twoPow, and_field_of_inside h]

/-- A word inside the field of its lowest `n` bits is those bits, zero-extended. -/
theorem setWidth_setWidth_of_inside {w : Word} {n : Nat} (h : w &&& ~~~(BitVec.allOnes n).setWidth 32 = 0#32) :
    (w.setWidth n).setWidth 32 = w := by
  conv_rhs => rw [← and_field_of_inside h]
  ext i hi
  simp [hi, Bool.and_comm]

/-- A MODE key is made of its two fields (R140). -/
theorem modeKeyOf_fields (key : BitVec 17) : modeKeyOf (key.extractLsb' 1 16) (key.getLsbD 0) = key := by
  apply BitVec.eq_of_getLsbD_eq
  intro k hk
  rw [modeKeyOf, BitVec.getLsbD_append]
  cases k with
  | zero => simp
  | succ j => simp [Nat.add_comm 1, show j < 16 by omega]

/-- The words from 6 up, and those that have rows of their own in R141 and R144. -/
theorem six_le_or_small (w : Word) :
    6 ≤ w.toNat ∨ w = 0#32 ∨ w = 1#32 ∨ w = 2#32 ∨ w = 3#32 ∨ w = 4#32 ∨ w = 5#32 := by
  bv_omega

theorem ne_small_of_six_le {w : Word} (h : 6 ≤ w.toNat) :
    w ≠ 0#32 ∧ w ≠ 1#32 ∧ w ≠ 2#32 ∧ w ≠ 3#32 ∧ w ≠ 4#32 ∧ w ≠ 5#32 := by
  bv_omega

/-! What the words of each format decode to -/

/-- A word that decodes lies inside its format's field. -/
theorem inside_of_decode {f : Format} {w : Word} {i : Instr} (h : decode ⟨f, w⟩ = .ok i) : w &&& ~~~f.field = 0#32 := by
  by_contra hout
  simp [decode, hout] at h

theorem decode_cmd (w : Word) : decode ⟨.cmd, w⟩ = .ok (decodeCmd w) := if_neg (by simp [Format.field])

theorem decode_comp (w : Word) : decode ⟨.comp, w⟩ = decodeComp w := if_neg (by simp [Format.field])

section
variable {w : Word}

theorem decode_mode (h : w &&& ~~~Format.mode.field = 0#32) : decode ⟨.mode, w⟩ = decodeMode (w.setWidth 17) :=
  if_neg (not_not.2 h)

theorem decode_order (h : w &&& ~~~Format.order.field = 0#32) : decode ⟨.order, w⟩ = .ok (decodeOrder (w.setWidth 3)) :=
  if_neg (not_not.2 h)

theorem decode_topdown (h : w &&& ~~~Format.topdown.field = 0#32) :
    decode ⟨.topdown, w⟩ = .ok (decodeTopdown (w.getLsbD 3)) :=
  if_neg (not_not.2 h)

theorem decode_outfmt (h : w &&& ~~~Format.outfmt.field = 0#32) :
    decode ⟨.outfmt, w⟩ = .ok (decodeOutfmt (w.getLsbD 4)) :=
  if_neg (not_not.2 h)

end

theorem decodeCmd_of_six_le {w : Word} (h : 6 ≤ w.toNat) : decodeCmd w = .illegal w := by
  simp [decodeCmd, ne_small_of_six_le h]

theorem decodeComp_of_six_le {comp : Word} (h : 6 ≤ comp.toNat) : decodeComp comp = .ok (.rejectOther comp) := by
  simp [decodeComp, ne_small_of_six_le h, h]

/-- The bit depths of the rows of R143. -/
theorem supported_of_decodeMode {bpp : BitVec 16} {bf : Bool} {i : Instr} (h : decodeMode (modeKeyOf bpp bf) = .ok i) :
    bpp = 0#16 ∨ bpp = 1#16 ∨ bpp = 4#16 ∨ bpp = 8#16 ∨ bpp = 16#16 ∨ bpp = 24#16 ∨ bpp = 32#16 := by
  by_contra hnone
  simp only [not_or] at hnone
  simp [decodeMode, Machine.modeKeyOf_bpp, hnone] at h

/-- Settles O4: the decoder runs on the nine words. -/
theorem writtenOutWordsDecode : Obligations.WrittenOutWordsDecode := by
  unfold Obligations.WrittenOutWordsDecode
  decide

/-! What the decoded instructions encode to -/

theorem encode_decodeCmd (w : Word) : encode (decodeCmd w) = ⟨.cmd, w⟩ ∧ (decodeCmd w).wf = true := by
  rcases six_le_or_small w with hsix | rfl | rfl | rfl | rfl | rfl | rfl
  · rw [decodeCmd_of_six_le hsix]
    exact ⟨rfl, decide_eq_true hsix⟩
  all_goals exact ⟨rfl, rfl⟩

theorem encode_of_decodeComp {comp : Word} {i : Instr} (h : decodeComp comp = .ok i) :
    encode i = ⟨.comp, comp⟩ ∧ i.wf = true := by
  rcases six_le_or_small comp with hsix | rfl | rfl | rfl | rfl | rfl | rfl
  · cases (decodeComp_of_six_le hsix).symm.trans h
    exact ⟨rfl, decide_eq_true hsix⟩
  all_goals cases h <;> exact ⟨rfl, rfl⟩

theorem encode_of_decodeMode {bpp : BitVec 16} {bf : Bool} {i : Instr} (h : decodeMode (modeKeyOf bpp bf) = .ok i) :
    encode i = encodedMode bpp bf ∧ i.wf = true := by
  rcases supported_of_decodeMode h with rfl | rfl | rfl | rfl | rfl | rfl | rfl <;>
    cases bf <;> cases h <;> exact ⟨rfl, rfl⟩

theorem encode_decodeOrder (ord : BitVec 3) :
    encode (decodeOrder ord) = ⟨.order, ord.setWidth 32⟩ ∧ (decodeOrder ord).wf = true := by
  revert ord
  decide

theorem encode_decodeTopdown (b : Bool) :
    encode (decodeTopdown b) = ⟨.topdown, if b then BitVec.twoPow 32 3 else 0#32⟩ ∧ (decodeTopdown b).wf = true := by
  cases b <;> exact ⟨rfl, rfl⟩

theorem encode_decodeOutfmt (b : Bool) :
    encode (decodeOutfmt b) = ⟨.outfmt, if b then BitVec.twoPow 32 4 else 0#32⟩ ∧ (decodeOutfmt b).wf = true := by
  cases b <;> exact ⟨rfl, rfl⟩

/-- Settles O1: `wf` keeps the operand of a constructor that covers many words to the words of its own rows; every other
instruction has one word, or one for each value of BF. -/
theorem encodeThenDecodeGivesTheInstruction : Obligations.EncodeThenDecodeGivesTheInstruction := by
  intro i hwf
  cases i with
  | illegal w => exact (decode_cmd w).trans (congrArg _ (decodeCmd_of_six_le (of_decide_eq_true hwf)))
  | rejectOther comp => exact (decode_comp comp).trans (decodeComp_of_six_le (of_decide_eq_true hwf))
  | orderInvalid ord => revert ord; decide
  | unpack0 bf | unpack1 bf | unpack4 bf | unpack8 bf | unpack24 bf => cases bf <;> rfl
  | _ => rfl

/-- Settles O2: the word is inside its format's field, so it is the field's value put back where the format has it. -/
theorem decodeThenEncodeGivesTheWord : Obligations.DecodeThenEncodeGivesTheWord := by
  rintro ⟨f, w⟩ i h
  have hin := inside_of_decode h
  cases f with
  | cmd =>
    cases (decode_cmd w).symm.trans h
    exact encode_decodeCmd w
  | comp => exact encode_of_decodeComp ((decode_comp w).symm.trans h)
  | mode =>
    rw [decode_mode hin, ← modeKeyOf_fields (w.setWidth 17)] at h
    have henc := encode_of_decodeMode h
    rwa [encodedMode, modeKeyOf_fields, setWidth_setWidth_of_inside (n := 17) hin] at henc
  | order =>
    cases (decode_order hin).symm.trans h
    have henc := encode_decodeOrder (w.setWidth 3)
    rwa [setWidth_setWidth_of_inside (n := 3) hin] at henc
  | topdown =>
    cases (decode_topdown hin).symm.trans h
    have henc := encode_decodeTopdown (w.getLsbD 3)
    rwa [bit_of_inside (k := 3) hin] at henc
  | outfmt =>
    cases (decode_outfmt hin).symm.trans h
    have henc := encode_decodeOutfmt (w.getLsbD 4)
    rwa [bit_of_inside (k := 4) hin] at henc

end Sys2Proof
end

section
/-! The opcode table's rows (R141 to R146), and the words that match them. -/

namespace Sys2Proof

variable {w pattern mask field : Word}

/-- A word that matches a row is at least the row's pattern. -/
theorem pattern_le_of_match (h : w &&& mask = pattern) : pattern.toNat ≤ w.toNat := by
  rw [← h, BitVec.toNat_and]
  exact Nat.and_le_left

/-- A row whose mask is its format's field has one word, its pattern. -/
theorem eq_pattern_of_match (hmask : mask = field) (h : w &&& mask = pattern) (hin : w &&& ~~~field = 0#32) :
    w = pattern := by
  rw [← h, hmask, and_field_of_inside hin]

/-- A row whose mask leaves bit 0 of its format's field free has two words. -/
theorem eq_pattern_or_of_match (hmask : mask ||| 1#32 = field) (h : w &&& mask = pattern)
    (hin : w &&& ~~~field = 0#32) : w = pattern ∨ w = pattern ||| 1#32 := by
  have hw : w = pattern ||| (if w.getLsbD 0 then 1#32 else 0#32) :=
    calc w = w &&& (mask ||| 1#32) := by rw [hmask, and_field_of_inside hin]
      _ = pattern ||| (w &&& BitVec.twoPow 32 0) := by rw [BitVec.and_or_distrib_left, h]; rfl
      _ = pattern ||| (if w.getLsbD 0 then 1#32 else 0#32) := by rw [BitVec.and_twoPow]; rfl
  cases hbit : w.getLsbD 0 with
  | true => exact .inr (by rwa [hbit] at hw)
  | false => exact .inl (by rwa [hbit, if_neg Bool.false_ne_true, BitVec.or_zero] at hw)

/-- Whether word `w` of the row's format decodes to an instruction of the row's mnemonic. -/
def OpcodeRow.names (row : OpcodeRow) (w : Word) : Bool :=
  match decode ⟨row.format, w⟩ with
  | .ok i => i.mnemonic = row.mnemonic
  | .error _ => false

theorem OpcodeRow.names_iff {row : OpcodeRow} :
    row.names w = true ↔ ∃ i, decode ⟨row.format, w⟩ = .ok i ∧ i.mnemonic = row.mnemonic := by
  unfold OpcodeRow.names
  cases decode ⟨row.format, w⟩ <;> simp

/-- Every row of the table covers words from 6 up of a format that has one instruction for them all, or has one word, or
two that differ in bit 0. -/
theorem opcodeRows_cases : ∀ row ∈ opcodeRows,
    (6 ≤ row.pattern.toNat ∧
      (row.format = .cmd ∧ row.mnemonic = "ILLEGAL" ∨ row.format = .comp ∧ row.mnemonic = "REJECT.OTHER")) ∨
    (row.mask = row.format.field ∧ row.names row.pattern) ∨
    (row.mask ||| 1#32 = row.format.field ∧ row.names row.pattern ∧ row.names (row.pattern ||| 1#32)) := by
  decide

/-- Settles O3, by the kinds of rows: the words from 6 up are decoded by their range, the single words one by one. -/
theorem everyOpcodeRowDecodesToItsMnemonic : Obligations.EveryOpcodeRowDecodesToItsMnemonic := by
  intro row hrow w hmatch hin
  have hle := pattern_le_of_match hmatch
  rcases opcodeRows_cases row hrow with ⟨hsix, ⟨hf, hm⟩ | ⟨hf, hm⟩⟩ | ⟨hmask, hname⟩ | ⟨hmask, hname, hname'⟩
  · exact ⟨.illegal w, by rw [hf, decode_cmd, decodeCmd_of_six_le (hsix.trans hle)], hm.symm⟩
  · exact ⟨.rejectOther w, by rw [hf, decode_comp, decodeComp_of_six_le (hsix.trans hle)], hm.symm⟩
  · rw [eq_pattern_of_match hmask hmatch hin]
    exact OpcodeRow.names_iff.1 hname
  · rcases eq_pattern_or_of_match hmask hmatch hin with hw | hw <;> rw [hw]
    · exact OpcodeRow.names_iff.1 hname
    · exact OpcodeRow.names_iff.1 hname'

end Sys2Proof
end

section
/-! The fields that the registers select (R143 to R146): each row of a format is DECODE with that field's value. -/

namespace Sys2Proof.Machine

open Sys2Proof.Spec

/-! A decoded field selects the operands that hold it -/

theorem selected_of_decodeMode {bpp : BitVec 16} {bf : Bool} {i : Instr} (r : Regs)
    (h : Sys2Proof.decodeMode (modeKeyOf bpp bf) = .ok i) : selected i r = some (r.withMode bpp bf) := by
  rcases supported_of_decodeMode h with rfl | rfl | rfl | rfl | rfl | rfl | rfl <;> cases bf <;> cases h <;> rfl

theorem selected_of_decodeComp {comp : Word} {i : Instr} (r : Regs) (h : Sys2Proof.decodeComp comp = .ok i) :
    selected i r = some (r.withComp comp) := by
  rcases six_le_or_small comp with hsix | rfl | rfl | rfl | rfl | rfl | rfl
  · cases (decodeComp_of_six_le hsix).symm.trans h
    rfl
  all_goals cases h <;> rfl

theorem selected_decodeOrder (ord : BitVec 3) (r : Regs) :
    selected (Sys2Proof.decodeOrder ord) r = some (r.withOrder ord) := by
  unfold Sys2Proof.decodeOrder
  split_ifs <;> subst_vars <;> rfl

theorem selected_decodeTopdown (b : Bool) (r : Regs) :
    selected (Sys2Proof.decodeTopdown b) r = some (r.withTopdown b) := by
  cases b <;> rfl

theorem selected_decodeOutfmt (b : Bool) (r : Regs) : selected (Sys2Proof.decodeOutfmt b) r = some (r.withOutfmt b) := by
  cases b <;> rfl

/-! Selecting the value that a field already holds changes nothing -/

/-- BF holds the compression where it is one of the two that DECODE decodes. -/
theorem Regs.withMode_self {r : Regs} (h : r.compression = 0#32 ∨ r.compression = 3#32) :
    r.withMode r.bpp r.bitFields = r := by
  have hcomp : (if r.bitFields then 3#32 else 0#32) = r.compression := by
    rcases h with h | h <;> simp [Regs.bitFields, h]
  rw [Regs.withMode, hcomp]

theorem Regs.withComp_self (r : Regs) : r.withComp r.compression = r := rfl

theorem Regs.withOrder_self (r : Regs) : r.withOrder r.order = r := by rw [Regs.withOrder, r.fmtOf_fields]

theorem Regs.withTopdown_self (r : Regs) : r.withTopdown r.topdown = r := by rw [Regs.withTopdown, r.fmtOf_fields]

theorem Regs.withOutfmt_self (r : Regs) : r.withOutfmt r.outfmt = r := by rw [Regs.withOutfmt, r.fmtOf_fields]

/-- An instruction that selects the operands as they stand is DECODE. -/
theorem exec_decode_eq_of_selected {i : Instr} {s : State} (h : selected i s.operands = some s.operands) :
    exec .decode s = exec i s :=
  (exec_selected (i := .decode) rfl).trans (exec_selected h).symm

/-- Settles O6: the row of the key selects BPP and BF, which the operands already hold. -/
theorem modeKeySelectsTheUnpackPath : Obligations.ModeKeySelectsTheUnpackPath := by
  intro s i hcomp hkey
  have hsel := selected_of_decodeMode s.operands hkey
  rw [Regs.withMode_self hcomp] at hsel
  exact exec_decode_eq_of_selected hsel

/-- Settles O7: the row of each field selects the value that the operands already hold. -/
theorem compressionAndFormatFieldsSelectTheirModes : Obligations.CompressionAndFormatFieldsSelectTheirModes := by
  intro s
  refine ⟨fun i hcomp => ?_, ?_, ?_, ?_⟩ <;> apply exec_decode_eq_of_selected
  · rw [selected_of_decodeComp _ hcomp, Regs.withComp_self]
  · rw [selected_decodeOrder, Regs.withOrder_self]
  · rw [selected_decodeTopdown, Regs.withTopdown_self]
  · rw [selected_decodeOutfmt, Regs.withOutfmt_self]

end Sys2Proof.Machine
end

section
/-! The host's WAIT (R149). -/

namespace Sys2Proof.Machine

variable {s : State}

/-- BUSY is bit 0 of STATUS (R35). -/
theorem State.readReg_status_busy (s : State) : (s.readReg .status).getLsbD 0 = s.busy := by
  change (statusWord s.busy s.regs.done s.regs.err).getLsbD 0 = s.busy
  rw [statusWord, BitVec.getLsbD_setWidth, BitVec.getLsbD_append]
  simp

/-- WAIT reads STATUS, and stands again at the head of the list exactly where the block is busy. -/
theorem State.hostOp_wait (hrst : s.rst = false) :
    s.hostOp .wait = .next (if s.busy then { s with busData := s.readReg .status, host := .wait :: s.host }
      else { s with busData := s.readReg .status }) := by
  simp only [State.hostOp, State.mmioRead_offset hrst, State.readReg_status_busy]

/-- Settles O59: BUSY decides whether WAIT stands again. -/
theorem waitHoldsUntilIdle : Obligations.WaitHoldsUntilIdle := by
  intro s hrst
  rw [State.hostOp_wait hrst]
  exact ⟨fun hbusy => by rw [if_pos hbusy], fun hidle => by rw [hidle, if_neg Bool.false_ne_true]⟩

end Sys2Proof.Machine
end

section
/-! The sequencer (`40_commands.md` R200 to R210): the step in which a command is accepted, the steps in which its
latency passes, and the step in which it completes; NOP, illegal words and MASK_LOAD. -/

namespace Sys2Proof.Machine

open Sys2Proof.Spec

variable {s : State} {p : Pending} {off v : Word}

/-! The turns of a step -/

/-- While a command is pending, its latency and the head of the host's list decide whose turn it is (R202, R441). -/
theorem State.engineTurn_of_pending (hp : s.pending = some p) : s.engineTurn = (p.delay == 0 && !s.resetNext) := by
  simp only [State.engineTurn, hp]

theorem State.engineTurn_of_idle (hp : s.pending = none) : s.engineTurn = false := by simp only [State.engineTurn, hp]

/-- R202: with its latency over, the pending command completes, where no reset wins over it (R441). -/
theorem step_of_delay_zero (hp : s.pending = some p) (hd : p.delay = 0) (hr : s.resetNext = false) :
    step s = exec (Sys2Proof.decodeCmd p.word) s := by
  simp only [step, hp, hd, hr, and_self, if_true]

/-- The state in which the host has its turn while a command is pending. -/
theorem State.hostReady_of_pending (hp : s.pending = some p) (rest : List HostOp) :
    s.hostReady rest = { s with pending := some { p with delay := p.delay - 1 }, host := rest } := by
  simp only [State.hostReady, hp, Option.map_some]

/-- The state in which the host has its turn while the block is idle. -/
theorem State.hostReady_of_idle (hp : s.pending = none) (rest : List HostOp) :
    s.hostReady rest = { s with host := rest } := by
  simp only [State.hostReady, hp, Option.map_none]

/-- The operation at the head of the host's list runs in the host's turn. -/
theorem step_of_host_cons {op : HostOp} {rest : List HostOp} (hturn : s.engineTurn = false) (hh : s.host = op :: rest) :
    step s = (s.hostReady rest).hostOp op := by
  rw [step_of_not_engineTurn hturn, hh]
  rfl

/-- A reset abandons a pending command whatever is left of its latency (R462). -/
theorem State.resetBlock_hostReady (rest : List HostOp) :
    (s.hostReady rest).resetBlock = { s with host := rest }.resetBlock := by
  have hwritten : (s.hostReady rest).mayHaveWritten = { s with host := rest }.mayHaveWritten := by
    cases hp : s.pending <;> simp [State.mayHaveWritten, State.hostReady, hp]
  unfold State.resetBlock
  rw [hwritten]
  split <;> rfl

/-- Settles O8: whose turn it is follows from the latency and from the head of the host's list. -/
theorem stepRunsTheLatchedCommand : Obligations.StepRunsTheLatchedCommand := by
  refine fun s => ⟨fun p i hp hd hhost hi => ?_, fun p rest hp hhost => ?_, fun p n hp hd => ?_, fun hp => ?_⟩
  · have hr : s.resetNext = false := Bool.eq_false_iff.2 fun h => (State.resetNext_iff.1 h).elim hhost
    cases (decode_cmd p.word).symm.trans hi
    exact step_of_delay_zero hp hd hr
  · have hturn : s.engineTurn = false := by
      simp [State.engineTurn_of_pending hp, State.resetNext_iff.2 ⟨rest, hhost⟩]
    rw [step_of_host_cons hturn hhost]
    simp only [State.hostOp, State.driveReset, if_true, State.resetBlock_hostReady]
  · have hturn : s.engineTurn = false := by simp [State.engineTurn_of_pending hp, hd]
    rw [step_of_not_engineTurn hturn, State.hostReady_of_pending hp, hd]
    rfl
  · rw [step_of_not_engineTurn (State.engineTurn_of_idle hp), State.hostReady_of_idle hp]

/-! Acceptance (R200) -/

/-- R478: the write that would start a DECODE over its own input, in the spec's words. -/
theorem State.startsOverlap_cmd_iff (hp : s.pending = none) (hrst : s.rst = false) :
    s.startsOverlap Reg.cmd.offset v = true ↔ v = 5#32 ∧ Overlapping s.regs := by
  simp only [State.startsOverlap, State.busy, hp, hrst, target_offset, Bool.and_eq_true, decide_eq_true_eq,
    memoryOverlap_iff]
  simp

/-- R200: a write of CMD while idle is the acceptance of its word, with a free latency. -/
theorem State.mmioWrite_cmd (hp : s.pending = none) (hrst : s.rst = false) :
    s.mmioWrite Reg.cmd.offset v = { s.accept v (Config.latency s.draws) with draws := s.draws + 1 } := by
  simp [State.mmioWrite, State.busy, hp, hrst]

/-- R200, R478: the host's write of CMD while idle is refused or accepted. -/
theorem State.hostWrite_cmd (hp : s.pending = none) (hrst : s.rst = false) :
    s.hostWrite Reg.cmd.offset v = if v = 5#32 ∧ Overlapping s.regs then .refused .memoryOverlap
      else .next { s.accept v (Config.latency s.draws) with draws := s.draws + 1 } := by
  rw [State.hostWrite, State.mmioWrite_cmd hp hrst]
  exact if_congr (State.startsOverlap_cmd_iff hp hrst) rfl rfl

/-- R475: while a command is pending a write is neither an acceptance nor a store. -/
theorem State.hostWrite_of_pending (hp : s.pending = some p) : s.hostWrite off v = .next s := by
  simp [State.hostWrite, State.startsOverlap, State.mmioWrite, State.busy, hp]

/-- Settles O9: the write is in the host's turn, and is accepted exactly where the block is idle. -/
theorem commandWriteIsAcceptedWhileIdle : Obligations.CommandWriteIsAcceptedWhileIdle := by
  intro s v rest hhost
  refine ⟨fun hp hrst => ⟨Config.latency s.draws, ?_⟩, fun p hp hd => ?_⟩
  · rw [step_of_host_cons (State.engineTurn_of_idle hp) hhost, State.hostReady_of_idle hp]
    exact State.hostWrite_cmd (s := { s with host := rest }) hp hrst
  · have hturn : s.engineTurn = false := by simp [State.engineTurn_of_pending hp, hd]
    rw [step_of_host_cons hturn hhost, State.hostReady_of_pending hp]
    exact State.hostWrite_of_pending rfl

/-! Latency (R202, R481) -/

/-- Settles O14, by induction on the latency: each step in which the host does nothing takes one unit of it. -/
theorem pendingCommandCompletesAfterItsLatency : Obligations.PendingCommandCompletesAfterItsLatency := by
  rintro s ⟨w, snap, d⟩ hp hhost
  induction d generalizing s with
  | zero =>
    have hr : s.resetNext = false := by simp only [State.resetNext, hhost]
    refine (run_one Sys2Proof.core s).trans ((step_of_delay_zero hp rfl hr).trans ?_)
    simp only [← hp]
  | succ d ih =>
    have hturn : s.engineTurn = false := by simp [State.engineTurn_of_pending hp]
    have hstep : step s = .next { s with pending := some ⟨w, snap, d⟩ } := by
      rw [step_of_not_engineTurn hturn, State.hostReady_of_pending hp, hhost, State.hostTurn]
      simp only [Nat.add_sub_cancel]
    exact (run_next Sys2Proof.core _ hstep).trans (ih _ rfl hhost)

/-! Completion (R201) -/

/-- A completion sets the flags and the error registers in one of two ways, whatever else the instruction changed. -/
theorem Completes.outcome {i : Instr} {t : State} (h : Completes i s t) :
    (∃ u : State, t = u.succeed) ∨ ∃ (u : State) (e : CmdError), e.code ≠ .malformedHeader ∧ t = u.raise e := by
  cases h
  case fail e hc _ _ => exact .inr ⟨s, e, hc, rfl⟩
  case palFail e hc _ _ => exact .inr ⟨_, e, hc, rfl⟩
  case badIndex o _ e he _ => exact .inr ⟨_, e, by simp [he], rfl⟩
  all_goals exact .inl ⟨_, rfl⟩

/-- Settles O15: an instruction succeeds or raises an error of the block, in some state. -/
theorem everyInstructionEndsInACompletion : Obligations.EveryInstructionEndsInACompletion := by
  intro i s
  obtain ⟨t, ht, hc⟩ := exec_completes i s
  refine ⟨t, ht, ?_⟩
  rcases hc.outcome with ⟨u, rfl⟩ | ⟨u, e, he, rfl⟩
  · simp
  · have hcode := code_produced he
    simp [code_ne_zero, hcode]

/-! NOP, illegal words and MASK_LOAD (R205, R206, R210) -/

/-- Settles O5: the words from 6 up have no other row, and nothing but the word is recorded. -/
theorem illegalWordsRaiseIllegalCommand : Obligations.IllegalWordsRaiseIllegalCommand :=
  fun _ _ _ hsix => ⟨decodeCmd_of_six_le hsix, rfl, rfl⟩

/-- Settles O31: NOP's completion is the completion without error, and its acceptance is R200. -/
theorem nopOnlyCompletes : Obligations.NopOnlyCompletes := fun _ => ⟨rfl, fun _ => rfl⟩

/-- A 32-bit little-endian read is the four bytes side by side (R17, R103). -/
theorem Memory.word32_eq_le32 (m : Memory) (a : Nat) : m.word32 a = le32 m a := by
  have join : ∀ x : Nat, ∀ y : Byte, x <<< 8 ||| y.toNat = x * 256 + y.toNat := fun x y => by
    rw [← Nat.shiftLeft_add_eq_or_of_lt y.isLt, Nat.shiftLeft_eq]
  apply BitVec.eq_of_toNat_eq
  have hfits : m.readLE a 4 < 2 ^ 32 := m.readLE_lt a 4
  rw [Memory.word32, BitVec.toNat_ofNat, Nat.mod_eq_of_lt hfits]
  simp only [Memory.readLE, le32, BitVec.toNat_append, join]
  ring

/-- Settles O32: the bounds check decides, and each word is four bytes of the block. -/
theorem maskLoadReadsThreeWords : Obligations.MaskLoadReadsThreeWords := by
  refine fun s => ⟨fun hfits => ?_, fun hover => ?_⟩
  · rw [← Memory.word32_eq_le32, ← Memory.word32_eq_le32, ← Memory.word32_eq_le32]
    exact execMaskLoad_of_ok (checkRange_eq_none.2 hfits)
  · exact execMaskLoad_of_error (if_pos hover)

end Sys2Proof.Machine
end

section
/-! The command DECODE (`40_commands.md` R220 to R228): the channel order's check, and what a DECODE that fails no check
leaves in OUTMEM. -/

namespace Sys2Proof.Machine

open Sys2Proof.Spec

variable {o : Regs} {s : State} {pix : List (List Word)}

/-! Check 5 (R224) -/

theorem checkFormat_eq_none (hc : o.compression = 0#32 ∨ o.compression = 3#32) (hw : 0 ≤ o.widthInt) :
    checkFormat o = none := by
  simp [checkFormat, hc, hw]

theorem checkCompression_eq_none (hc : o.compression = 0#32 ∨ o.compression = 3#32) : checkCompression o = none :=
  if_pos hc

theorem checkDepth_eq_none (hd : o.bpp ∈ [0#16, 1#16, 4#16, 8#16, 16#16, 24#16, 32#16]) : checkDepth o = none :=
  if_pos (List.contains_iff_mem.2 hd)

theorem checkUsedMasks_eq_none
    (hm : o.usesMasks = true → contiguous o.rmask = true ∧ contiguous o.gmask = true ∧ contiguous o.bmask = true) :
    checkUsedMasks o = none := by
  unfold checkUsedMasks
  split
  · rename_i huse
    obtain ⟨hred, hgreen, hblue⟩ := hm huse
    simp [checkMasks, checkMask, hred, hgreen, hblue]
  · rfl

theorem checkOrder_of_invalid (ho : 4 ≤ o.order.toNat) :
    checkOrder o = some ⟨.invalidChannelOrder, o.order.setWidth 32, 0, 0⟩ := if_pos ho

/-- R224: the order's check is the one reported where the four before it pass. -/
theorem decodeError_of_invalid_order (ho : 4 ≤ o.order.toNat) (hc : o.compression = 0#32 ∨ o.compression = 3#32)
    (hw : 0 ≤ o.widthInt) (hd : o.bpp ∈ [0#16, 1#16, 4#16, 8#16, 16#16, 24#16, 32#16])
    (hm : o.usesMasks = true → contiguous o.rmask = true ∧ contiguous o.gmask = true ∧ contiguous o.bmask = true) :
    decodeError o = some ⟨.invalidChannelOrder, o.order.setWidth 32, 0, 0⟩ := by
  rw [decodeError, checkFormat_eq_none hc hw, checkCompression_eq_none hc, checkDepth_eq_none hd,
    checkUsedMasks_eq_none hm, checkOrder_of_invalid ho]
  rfl

/-- Settles O44: the four checks before the order's do not look at FMT, so they pass as the operands have it. -/
theorem invalidOrdersRaise : Obligations.InvalidOrdersRaise := by
  intro s ord o hord hcomp hwidth hdepth hmasks
  have herr := decodeError_of_invalid_order (o := o.withOrder ord) (by simpa using hord) hcomp hwidth hdepth hmasks
  rw [Regs.withOrder_order] at herr
  exact runDecode_of_failed_check herr

/-! The kept pixels (R227, R371 to R373) -/

/-- The rows are reversed as the table of R375 says. -/
theorem sourceRow_eq_storedRowOf (o : Regs) (r : Nat) :
    sourceRow o.storedTopDown o.topdown o.rowCount r = storedRowOf o r := by
  unfold sourceRow storedRowOf
  cases o.storedTopDown <;> cases o.topdown <;> rfl

theorem storedRowOf_lt {r : Nat} (hr : r < o.rowCount) : storedRowOf o r < o.rowCount := by
  unfold storedRowOf
  split <;> omega

/-- A pixel's bytes stand in memory as the channel order and the output format name them (R380 to R385). -/
theorem stored_channels {ord : BitVec 3} (hord : ord.toNat ≤ 3) (outfmt : Bool) (p : Word) :
    [(channels p ord).stored outfmt 0, (channels p ord).stored outfmt 1, (channels p ord).stored outfmt 2,
      (channels p ord).stored outfmt 3] = storedBytes outfmt ord p := by
  have hcases : ord = 0#3 ∨ ord = 1#3 ∨ ord = 2#3 ∨ ord = 3#3 := by bv_omega
  rcases hcases with rfl | rfl | rfl | rfl <;> cases outfmt <;> rfl

/-- The bytes of OUTMEM that show a kept pixel after the compose step. -/
theorem shownBytes_compose (hord : o.order.toNat ≤ 3) (m : Memory) {r c : Nat} (hr : r < o.rowCount)
    (hc : c < o.imageWidth) :
    shownBytes o (compose o pix m) r c = storedBytes o.outfmt o.order (pixelAt pix (storedRowOf o r) c) := by
  have hbyte : ∀ j < 4, (compose o pix m).read (4 * (r * o.imageWidth + c) + j) =
      (channels (pixelAt pix (storedRowOf o r) c) o.order).stored o.outfmt j := fun j hj => by
    rw [read_compose_pixel o pix m hr hc hj, shownQuad, sourceRow_eq_storedRowOf]
  rw [← stored_channels hord, shownBytes, ← hbyte 0 (by omega), ← hbyte 1 (by omega), ← hbyte 2 (by omega),
    ← hbyte 3 (by omega)]
  rfl

/-- The W kept pixels of a stored row are among its P unpacked ones, at every depth but 0 (R320, R373). -/
theorem lt_paddedWidth_of_lt_imageWidth (h0 : o.bpp ≠ 0#16) {c : Nat} (hc : c < o.imageWidth) : c < o.paddedWidth :=
  hc.trans_le (Regs.imageWidth_le_paddedWidth (by bv_omega))

/-- R227: a DECODE that fails no check, and no pixel, succeeds on its pixels. -/
theorem runDecode_decodesTo {pixel : Nat → Nat → Word} (ha : Admitted o) (h0 : o.bpp ≠ 0#16)
    (hpix : ∀ sr < o.rowCount, ∀ c < o.paddedWidth, unpackPixel o s.pal s.inmem sr c = .ok (pixel sr c)) :
    DecodesTo (runDecode o s) o s pixel := by
  obtain ⟨pix, hu⟩ := unpackAll_of_pixels fun sr hsr c hc => ⟨_, hpix sr hsr c hc⟩
  have hout : decodedOut o pix s.outmem = compose o pix s.outmem := if_neg h0
  refine ⟨decodedOut o pix s.outmem, runDecode_of_ok (decodeError_eq_none_iff.2 ha) hu, fun r hr c hc => ?_,
    fun a => decodedOut_above o pix s.outmem⟩
  have hsr := storedRowOf_lt hr
  have hcp := lt_paddedWidth_of_lt_imageWidth h0 hc
  have hsame : pixelAt pix (storedRowOf o r) c = pixel (storedRowOf o r) c :=
    Except.ok.inj ((unpackPixel_of_unpackAll hu h0 hsr hcp).symm.trans (hpix _ hsr c hcp))
  obtain ⟨-, -, -, -, hord, -⟩ := ha
  rw [hout, shownBytes_compose hord _ hr hc, hsame]

/-- Settles O45: every decode-family instruction is DECODE on the operands it selects. -/
theorem decodeWritesTheKeptPixels : Obligations.DecodeWritesTheKeptPixels := by
  intro i s o pix hsel ha h0 hpix
  rw [exec_selected hsel]
  exact runDecode_decodesTo ha h0 hpix

end Sys2Proof.Machine
end

section
/-! The palette (`41_palette.md` R251 to R261): the checks of PAL_LOAD in their order, what a region that passes them
loads, and the pixel of an entry. -/

namespace Sys2Proof.Machine

open Sys2Proof.Spec

variable {s : State} {o : Regs} {m : Memory} {a n i : Nat} {e : PalEntry}

/-! Saturation (R411) -/

theorem sat32_of_lt (h : n < 2 ^ 32) : sat32 n = BitVec.ofNat 32 n := by rw [sat32, Nat.min_eq_left (by omega)]

theorem sat32_toNat (w : Word) : sat32 w.toNat = w := by rw [sat32_of_lt w.isLt, BitVec.ofNat_toNat, BitVec.setWidth_eq]

/-! The first failing check of PAL_LOAD (R440) -/

/-- R252: a region that does not lie below IN_LEN is reported before its entries are looked at. -/
theorem palLoadError_of_truncated (h : o.inLen.toNat < o.palBase.toNat + o.palLen.toNat) :
    palLoadError o m = some ⟨.truncatedInput, sat32 (o.palBase.toNat + o.palLen.toNat), 0, 0⟩ := by
  simp only [palLoadError, checkRange, if_pos h]

/-- R251: in a region below IN_LEN the lowest entry with a nonzero reserved byte is reported. -/
theorem palLoadError_of_malformed (hfits : o.palBase.toNat + o.palLen.toNat ≤ o.inLen.toNat)
    (hi : i < o.palLen.toNat / 4) (hbad : reservedAt m o.palBase.toNat i ≠ 0#8)
    (hlow : ∀ j < i, reservedAt m o.palBase.toNat j = 0#8) :
    palLoadError o m = some ⟨.malformedPalette, sat32 i, 0, (reservedAt m o.palBase.toNat i).setWidth 32⟩ := by
  have hfirst : firstSuch (fun j => reservedAt m o.palBase.toNat j != 0#8) (o.palLen.toNat / 4) = some i :=
    firstSuch_eq_some.2 ⟨hi, bne_iff_ne.2 hbad, fun j hj => bne_eq_false_iff_eq.2 (hlow j hj)⟩
  simp only [palLoadError, checkRange_eq_none.2 hfits, hfirst]

/-- R253: where the region lies below IN_LEN and its reserved bytes are 0, the number of entries decides. -/
theorem palLoadError_of_wellformed (hfits : o.palBase.toNat + o.palLen.toNat ≤ o.inLen.toNat)
    (hzero : ∀ j < o.palLen.toNat / 4, reservedAt m o.palBase.toNat j = 0#8) :
    palLoadError o m = if Config.palMax < o.palLen.toNat / 4 then
      some ⟨.paletteOverflow, sat32 (o.palLen.toNat / 4), 0, 0⟩ else none := by
  have hfirst : firstSuch (fun j => reservedAt m o.palBase.toNat j != 0#8) (o.palLen.toNat / 4) = none :=
    firstSuch_eq_none.2 fun j hj => bne_eq_false_iff_eq.2 (hzero j hj)
  simp only [palLoadError, checkRange_eq_none.2 hfits, hfirst]

/-! The palette RAM after a load, and the pixel of an entry -/

/-- R251: below their number, the entries of the palette RAM are those of the region. -/
theorem palLoaded_pal_getElem? (hi : i < n) : (palLoaded n a s).pal[i]? = some (entryAt s.inmem a i) := by
  simp [List.getElem?_append_left, hi]

/-- R256: the lookup's pixel is that of the entry in the RAM. -/
theorem paletteArgb_eq_entryPixel {pal : List PalEntry} (h : pal[i]? = some e) : paletteArgb pal i = entryPixel e := by
  simp only [paletteArgb, palEntry, List.getD_eq_getElem?_getD, h, Option.getD_some, entryPixel]

/-- Settles O33: the three checks pass, so the palette RAM is the region's entries and then free ones up to 256. -/
theorem palLoadLoadsTheRegion : Obligations.PalLoadLoadsTheRegion := by
  intro s o a n hfits hzero hn
  have hok : palLoadError o s.inmem = none := (palLoadError_of_wellformed hfits hzero).trans (if_neg (Nat.not_lt.2 hn))
  refine ⟨_, _, execPalLoad_of_ok hok, ?_, fun i hi => palLoaded_pal_getElem? hi⟩
  rw [List.length_append, List.length_map, List.length_range, freeEntries_length]
  exact Nat.add_sub_cancel' hn

/-- Settles O34: each premise names the first failing check, and every error leaves `palEmptied`. -/
theorem palLoadReportsItsFirstError : Obligations.PalLoadReportsItsFirstError := by
  intro s o a n emptied
  have hn : n < 2 ^ 32 := (Nat.div_le_self _ _).trans_lt o.palLen.isLt
  refine ⟨fun hover => ?_, fun hfits k hk hbad hlow => ?_, fun hfits hzero hmany => ?_⟩
  · exact ⟨_, _, execPalLoad_of_error (palLoadError_of_truncated hover)⟩
  · rw [← sat32_of_lt (hk.trans hn)]
    exact ⟨_, _, execPalLoad_of_error (palLoadError_of_malformed hfits hk hbad hlow)⟩
  · rw [← sat32_of_lt hn]
    exact ⟨_, _, execPalLoad_of_error ((palLoadError_of_wellformed hfits hzero).trans (if_pos hmany))⟩

/-- Settles O35: PAL_COUNT decides whether the lookup succeeds, and an index of 32 bits is reported unsaturated. -/
theorem palLookupGivesTheEntryPixel : Obligations.PalLookupGivesTheEntryPixel := by
  refine fun s => ⟨fun e hlt he => ?_, fun hge => ?_⟩
  · exact execPalLookup_of_ok (lookup_eq_ok.2 ⟨hlt, paletteArgb_eq_entryPixel he⟩)
  · have hraise := execPalLookup_of_error (lookup_eq_error.2 ⟨hge, rfl⟩)
    rwa [sat32_toNat] at hraise

end Sys2Proof.Machine
end

section
/-! The bit-field mask extractor (`42_bitfield.md` R280 to R295): the masks that are one run of ones, the field such a
mask cuts out of a pixel, its rescale to 8 bits, and BFX. -/

namespace Sys2Proof.Machine

variable {m p : Word} {off w a k f : Nat}

/-! The offset and the width of a run of ones (R280) -/

/-- The zero bits below an odd number's place are those of its power of two. -/
theorem trailingZeros_odd_mul_two_pow (ha : a % 2 = 1) (hoff : off < k) : trailingZeros k (a * 2 ^ off) = off := by
  induction k generalizing off with
  | zero => omega
  | succ k ih =>
    cases off with
    | zero => simp [trailingZeros, ha]
    | succ off =>
      have heven : a * 2 ^ (off + 1) = 2 * (a * 2 ^ off) := by ring
      rw [trailingZeros, heven, if_neg (by omega), Nat.mul_div_cancel_left _ two_pos, ih (by omega), Nat.add_comm]

theorem two_pow_succ_sub_one (w : Nat) : 2 ^ (w + 1) - 1 = 2 * (2 ^ w - 1) + 1 := by
  have := Nat.two_pow_pos w
  omega

theorem two_pow_sub_one_odd (hw : 1 ≤ w) : (2 ^ w - 1) % 2 = 1 := by
  obtain ⟨w, rfl⟩ := Nat.exists_eq_add_of_le' hw
  rw [two_pow_succ_sub_one, Nat.mul_add_mod]

theorem setBits_zero (k : Nat) : setBits k 0 = 0 := by
  induction k with
  | zero => rfl
  | succ k ih => rw [setBits, Nat.zero_mod, Nat.zero_div, ih]

theorem setBits_two_pow_sub_one (hw : w ≤ k) : setBits k (2 ^ w - 1) = w := by
  induction w generalizing k with
  | zero => exact setBits_zero k
  | succ w ih =>
    obtain ⟨k, rfl⟩ := Nat.exists_eq_add_of_le' (Nat.one_le_of_lt hw)
    have hhalf : (2 * (2 ^ w - 1) + 1) / 2 = 2 ^ w - 1 := by omega
    rw [setBits, two_pow_succ_sub_one, hhalf, ih (by omega)]
    omega

/-- A run of `w` ones has `w` set bits wherever it starts. -/
theorem setBits_run (hfits : off + w ≤ k) : setBits k ((2 ^ w - 1) * 2 ^ off) = w := by
  induction off generalizing k with
  | zero => simpa using setBits_two_pow_sub_one (by omega)
  | succ off ih =>
    obtain ⟨k, rfl⟩ := Nat.exists_eq_add_of_le' (show 1 ≤ k by omega)
    have heven : (2 ^ w - 1) * 2 ^ (off + 1) = 2 * ((2 ^ w - 1) * 2 ^ off) := by ring
    rw [setBits, heven, Nat.mul_mod_right, Nat.mul_div_cancel_left _ two_pos, ih (by omega), Nat.zero_add]

theorem ne_zero_of_toNat_odd_mul (ha : a % 2 = 1) (hm : m.toNat = a * 2 ^ off) : m ≠ 0#32 := by
  rintro rfl
  have := Nat.two_pow_pos off
  rcases Nat.mul_eq_zero.1 hm.symm <;> omega

theorem ctz_of_odd_mul (hoff : off < 32) (ha : a % 2 = 1) (hm : m.toNat = a * 2 ^ off) : ctz m.toNat = off :=
  hm ▸ trailingZeros_odd_mul_two_pow ha hoff

theorem ne_zero_of_run (hw : 1 ≤ w) (hm : m.toNat = (2 ^ w - 1) * 2 ^ off) : m ≠ 0#32 :=
  ne_zero_of_toNat_odd_mul (two_pow_sub_one_odd hw) hm

theorem maskOff_run (hw : 1 ≤ w) (hfits : off + w ≤ 32) (hm : m.toNat = (2 ^ w - 1) * 2 ^ off) :
    maskOff m = off := by
  rw [maskOff, if_neg (ne_zero_of_run hw hm), ctz_of_odd_mul (by omega) (two_pow_sub_one_odd hw) hm]

theorem maskWidth_run (hw : 1 ≤ w) (hfits : off + w ≤ 32) (hm : m.toNat = (2 ^ w - 1) * 2 ^ off) :
    maskWidth m = w := by
  rw [maskWidth, if_neg (ne_zero_of_run hw hm), popcount, hm, setBits_run hfits]

/-! Contiguous masks (R281) -/

/-- `x` and `x + 1` share no bit exactly when `x` is a run of ones from bit 0 up. -/
theorem and_succ_eq_zero_iff {x : Nat} : x &&& (x + 1) = 0 ↔ ∃ w, x = 2 ^ w - 1 := by
  have hpow := Nat.and_sub_one_eq_zero_iff_isPowerOfTwo (Nat.succ_ne_zero x)
  rw [Nat.succ_eq_add_one, Nat.add_sub_cancel, Nat.and_comm] at hpow
  rw [hpow]
  exact exists_congr fun w => by have := Nat.two_pow_pos w; omega

/-- A mask other than zero is an odd number in the place of its lowest set bit. -/
theorem exists_odd_mul_two_pow (hm : m ≠ 0#32) : ∃ off a, off < 32 ∧ a % 2 = 1 ∧ m.toNat = a * 2 ^ off := by
  obtain ⟨off, a, hodd, heq⟩ := Nat.exists_eq_two_pow_mul_odd (n := m.toNat) (by bv_omega)
  have ha : a % 2 = 1 := Nat.odd_iff.1 hodd
  have hle : 2 ^ off ≤ m.toNat := heq ▸ Nat.le_mul_of_pos_right _ (by omega)
  exact ⟨off, a, (Nat.pow_lt_pow_iff_right one_lt_two).1 (hle.trans_lt m.isLt), ha, heq.trans (Nat.mul_comm _ _)⟩

/-- R281: the bits from the lowest set one up decide whether a mask is contiguous. -/
theorem contiguous_odd_mul_iff (hoff : off < 32) (ha : a % 2 = 1) (hm : m.toNat = a * 2 ^ off) :
    contiguous m = true ↔ ∃ w, a = 2 ^ w - 1 := by
  have hshift : m.toNat >>> off = a := by rw [hm, Nat.shiftRight_eq_div_pow, Nat.mul_div_cancel _ (Nat.two_pow_pos off)]
  rw [contiguous, ctz_of_odd_mul hoff ha hm, hshift, Bool.or_eq_true, beq_iff_eq, beq_iff_eq, and_succ_eq_zero_iff]
  exact or_iff_right (ne_zero_of_toNat_odd_mul ha hm)

/-- A run of ones in a mask ends at bit 31 at the latest. -/
theorem run_fits (hw : 1 ≤ w) (hm : m.toNat = (2 ^ w - 1) * 2 ^ off) : off + w ≤ 32 := by
  obtain ⟨w, rfl⟩ := Nat.exists_eq_add_of_le' hw
  have hones : 2 ^ w ≤ 2 ^ (w + 1) - 1 := by have := Nat.two_pow_pos w; omega
  have htop : 2 ^ (w + off) ≤ m.toNat := by
    rw [hm, pow_add]
    exact Nat.mul_le_mul_right _ hones
  have := (Nat.pow_lt_pow_iff_right one_lt_two).1 (htop.trans_lt m.isLt)
  omega

theorem contiguous_iff_run :
    contiguous m = true ↔ m = 0#32 ∨ ∃ off w, 1 ≤ w ∧ off + w ≤ 32 ∧ m.toNat = (2 ^ w - 1) * 2 ^ off := by
  constructor
  · intro hc
    refine or_iff_not_imp_left.2 fun hne => ?_
    obtain ⟨off, a, hoff, ha, hm⟩ := exists_odd_mul_two_pow hne
    obtain ⟨w, rfl⟩ := (contiguous_odd_mul_iff hoff ha hm).1 hc
    have hw : 1 ≤ w := Nat.one_le_iff_ne_zero.2 fun h => by simp [h] at ha
    exact ⟨off, w, hw, run_fits hw hm, hm⟩
  · rintro (rfl | ⟨off, w, hw, hfits, hm⟩)
    · rfl
    · exact (contiguous_odd_mul_iff (by omega) (two_pow_sub_one_odd hw) hm).2 ⟨w, rfl⟩

/-- Settles O37: a mask is an odd number in the place of its lowest set bit, and that number must be all ones. -/
theorem contiguousMasksAreSingleRuns : Obligations.ContiguousMasksAreSingleRuns :=
  ⟨fun _ => contiguous_iff_run,
    fun _ _ _ hw hfits hm => ⟨maskOff_run hw hfits hm, maskWidth_run hw hfits hm⟩, rfl⟩

/-! The rescale (R284 to R288) -/

/-- R286: the rescale of a field that has bits. -/
theorem rescale_eq_div (hw : 1 ≤ w) : rescale f w = (2 * 255 * f + (2 ^ w - 1)) / (2 * (2 ^ w - 1)) :=
  if_neg (by omega)

/-- R286: rounding leaves less than half of the divisor `2 ^ w - 1` on either side, and no exact half, as it is odd. -/
theorem rescale_bounds (hw : 1 ≤ w) : 2 * (2 ^ w - 1) * rescale f w < 2 * (255 * f) + (2 ^ w - 1) ∧
    2 * (255 * f) < 2 * (2 ^ w - 1) * rescale f w + (2 ^ w - 1) := by
  have hodd := two_pow_sub_one_odd hw
  rw [rescale_eq_div hw]
  generalize 2 ^ w - 1 = d at hodd ⊢
  have hdiv := Nat.div_add_mod (2 * 255 * f + d) (2 * d)
  have hmod := Nat.mod_lt (2 * 255 * f + d) (show 0 < 2 * d by omega)
  have heven : 2 * d * ((2 * 255 * f + d) / (2 * d)) = 2 * (d * ((2 * 255 * f + d) / (2 * d))) := Nat.mul_assoc _ _ _
  omega

/-- R286: the rescale of a field fits 8 bits. -/
theorem rescale_le (hw : 1 ≤ w) (hf : f ≤ 2 ^ w - 1) : rescale f w ≤ 255 := by
  obtain ⟨hlow, -⟩ := rescale_bounds (f := f) hw
  have hfactor : 2 * (2 ^ w - 1) * rescale f w < 2 * (2 ^ w - 1) * 256 := by omega
  exact Nat.le_of_lt_succ (Nat.lt_of_mul_lt_mul_left hfactor)

/-- Settles O39: no tie, because the numerator is even and `2 ^ w - 1` odd. -/
theorem rescaleIsTheNearestInteger : Obligations.RescaleIsTheNearestInteger :=
  fun _ _ hw _ hf => ⟨rescale_le hw hf, rescale_bounds hw⟩

/-- R284: where the exact quotient is an integer, it is the rescale. -/
theorem rescale_of_exact {q : Nat} (hw : 1 ≤ w) (hq : 255 * f = (2 ^ w - 1) * q) : rescale f w = q := by
  have hpos : 0 < 2 ^ w - 1 := Nat.pos_of_ne_zero fun h => by simpa [h] using two_pow_sub_one_odd hw
  rw [rescale_eq_div hw]
  generalize 2 ^ w - 1 = d at hq hpos ⊢
  have hnum : 2 * 255 * f + d = d + 2 * d * q := by rw [Nat.mul_assoc, hq]; ring
  rw [hnum, Nat.add_mul_div_left _ _ (by omega), Nat.div_eq_of_lt (by omega), Nat.zero_add]

theorem rescale_eight (f : Nat) : rescale f 8 = f := rescale_of_exact (by omega) rfl

/-- Settles O40: at both ends of a width, and everywhere at width 8, the exact quotient is an integer. -/
theorem rescaleExtremesAndWidthEight : Obligations.RescaleExtremesAndWidthEight :=
  ⟨fun _ hw _ => ⟨rescale_of_exact hw rfl, rescale_of_exact hw (Nat.mul_comm _ _)⟩, fun f _ => rescale_eight f⟩

/-! The channel under a run (R283, R289) -/

/-- R283: a run of `w` ones at `off` cuts the `w` bits from `off` up out of a pixel. -/
theorem field_run (hw : 1 ≤ w) (hfits : off + w ≤ 32) (hm : m.toNat = (2 ^ w - 1) * 2 ^ off) :
    field p m = p.toNat / 2 ^ off % 2 ^ w := by
  rw [field, maskOff_run hw hfits hm, hm, ← Nat.shiftLeft_eq, Nat.shiftRight_and_distrib, Nat.shiftLeft_shiftRight,
    Nat.and_two_pow_sub_one_eq_mod, Nat.shiftRight_eq_div_pow]

theorem chan_run (hw : 1 ≤ w) (hfits : off + w ≤ 32) (hm : m.toNat = (2 ^ w - 1) * 2 ^ off) :
    (chan p m).toNat = rescale (p.toNat / 2 ^ off % 2 ^ w) w := by
  have hfield : p.toNat / 2 ^ off % 2 ^ w ≤ 2 ^ w - 1 := Nat.le_sub_one_of_lt (Nat.mod_lt _ (Nat.two_pow_pos w))
  rw [chan, if_neg (ne_zero_of_run hw hm), field_run hw hfits hm, maskWidth_run hw hfits hm, BitVec.toNat_ofNat]
  exact Nat.mod_eq_of_lt (Nat.lt_succ_of_le (rescale_le hw hfield))

/-- Settles O38: the field of a run, rescaled, fits the channel's 8 bits. -/
theorem channelIsTheRescaledField : Obligations.ChannelIsTheRescaledField :=
  fun _ _ => ⟨fun _ _ hw hfits hm => chan_run hw hfits hm, fun hm => if_pos hm⟩

/-! The default masks (R290, R291) -/

/-- R288: a run of eight ones cuts out a byte, which the rescale keeps. -/
theorem chan_byte (hfits : off + 8 ≤ 32) (hm : m.toNat = (2 ^ 8 - 1) * 2 ^ off) : chan p m = p.extractLsb' off 8 := by
  apply BitVec.eq_of_toNat_eq
  rw [chan_run (by omega) hfits hm, rescale_eight, BitVec.extractLsb'_toNat, Nat.shiftRight_eq_div_pow]

theorem toNat_append_eq_add {n : Nat} (x : BitVec n) (y : BitVec k) : (x ++ y).toNat = x.toNat * 2 ^ k + y.toNat := by
  rw [BitVec.toNat_append, ← Nat.shiftLeft_add_eq_or_of_lt y.isLt, Nat.shiftLeft_eq]

/-- R290: three bytes of a pixel side by side are its low 24 bits. -/
theorem argb_low_bytes (p : Word) : argb 0xFF#8 (p.extractLsb' 16 8) (p.extractLsb' 8 8) (p.extractLsb' 0 8) =
    0xFF000000#32 ||| (p &&& 0x00FFFFFF#32) := by
  have hforced : (0xFF000000#32 ||| (p &&& 0x00FFFFFF#32)).toNat = 0xFF * 2 ^ 24 + p.toNat % 2 ^ 24 := by
    rw [BitVec.toNat_or, BitVec.toNat_and, show (0x00FFFFFF#32).toNat = 2 ^ 24 - 1 from rfl,
      Nat.and_two_pow_sub_one_eq_mod]
    exact (Nat.shiftLeft_add_eq_or_of_lt (Nat.mod_lt _ (Nat.two_pow_pos 24)) 0xFF).symm
  apply BitVec.eq_of_toNat_eq
  rw [hforced]
  simp only [argb, toNat_append_eq_add, BitVec.toNat_ofNat]
  simp only [BitVec.extractLsb'_toNat, Nat.shiftRight_eq_div_pow]
  omega

/-- A channel looks at no bit outside its mask (R283). -/
theorem chan_and_of_covered {kept : Word} (h : kept &&& m = m) : chan (p &&& kept) m = chan p m := by
  have hcut : (p &&& kept).toNat &&& m.toNat = p.toNat &&& m.toNat := by
    rw [← BitVec.toNat_and, BitVec.and_assoc, h, BitVec.toNat_and]
  rw [chan, field, hcut]
  rfl

/-- Settles O41: the 32 bpp masks are three bytes, and the 16 bpp masks lie below bit 15. -/
theorem defaultMasksReadTheirBits : Obligations.DefaultMasksReadTheirBits := by
  refine fun p => ⟨?_, ?_⟩
  · rw [bfx, chan_byte (off := 16) (by omega) rfl, chan_byte (off := 8) (by omega) rfl,
      chan_byte (off := 0) (by omega) rfl, argb_low_bytes]
  · rw [bfx, bfx, chan_and_of_covered rfl, chan_and_of_covered rfl, chan_and_of_covered rfl]

/-! BFX (R295) -/

theorem checkMask_of_contiguous (h : contiguous m = true) (channel : Word) : checkMask channel m = none := if_pos h

theorem checkMask_of_not_contiguous (h : contiguous m = false) (channel : Word) :
    checkMask channel m = some ⟨.invalidColorMask, m, 0, channel⟩ :=
  if_neg (Bool.eq_false_iff.1 h)

/-- Settles O36: the first broken mask in the order red, green, blue is the error of the three checks. -/
theorem bfxChecksAndExtracts : Obligations.BfxChecksAndExtracts := by
  intro s o
  refine ⟨fun hr => ?_, fun hr hg => ?_, fun hr hg hb => ?_, fun hr hg hb => ?_⟩
  · refine execBfx_of_error (e := ⟨.invalidColorMask, o.rmask, 0, 0⟩) ?_
    rw [checkMasks, checkMask_of_not_contiguous hr]
    rfl
  · refine execBfx_of_error (e := ⟨.invalidColorMask, o.gmask, 0, 1⟩) ?_
    rw [checkMasks, checkMask_of_contiguous hr, checkMask_of_not_contiguous hg]
    rfl
  · refine execBfx_of_error (e := ⟨.invalidColorMask, o.bmask, 0, 2⟩) ?_
    rw [checkMasks, checkMask_of_contiguous hr, checkMask_of_contiguous hg, checkMask_of_not_contiguous hb]
    rfl
  · refine execBfx_of_ok ?_
    rw [checkMasks, checkMask_of_contiguous hr, checkMask_of_contiguous hg, checkMask_of_contiguous hb]
    rfl

end Sys2Proof.Machine
end

section
/-! The pixel unpacker (`43_unpack.md` R322 to R341): the rejected compression values, the pixel of each unpack path in
the words of the spec, and the first index that is out of range. -/

namespace Sys2Proof.Machine

open Sys2Proof.Spec

variable {i : Instr} {s : State} {o : Regs} {pal : List PalEntry} {m : Memory} {sr c : Nat}

/-! Rejected compression values (R340, R341) -/

/-- R144: the two values that DECODE decodes have no rejection row. -/
theorem not_decoded_of_decodeComp {comp : Word} (h : Sys2Proof.decodeComp comp = .ok i) :
    ¬(comp = 0#32 ∨ comp = 3#32) := by
  rintro (rfl | rfl) <;> cases h

theorem checkFormat_of_neg_height (hh : o.heightInt < 0) (hc : ¬(o.compression = 0#32 ∨ o.compression = 3#32)) :
    checkFormat o = some ⟨.unsupportedFormat, 1, 0, 0⟩ := if_pos ⟨hh, hc⟩

theorem checkFormat_of_neg_width (hh : 0 ≤ o.heightInt) (hw : o.widthInt < 0) :
    checkFormat o = some ⟨.unsupportedFormat, 2, 0, 0⟩ :=
  (if_neg fun h => not_lt.2 hh h.1).trans (if_pos hw)

theorem checkFormat_of_nonneg (hh : 0 ≤ o.heightInt) (hw : 0 ≤ o.widthInt) : checkFormat o = none :=
  (if_neg fun h => not_lt.2 hh h.1).trans (if_neg (not_lt.2 hw))

theorem decodeError_of_checkFormat {e : CmdError} (h : checkFormat o = some e) : decodeError o = some e := by
  rw [decodeError, h]
  rfl

/-- R222: where the format's check passes, a rejected value is the one reported. -/
theorem decodeError_of_rejected (h : checkFormat o = none) (hc : ¬(o.compression = 0#32 ∨ o.compression = 3#32)) :
    decodeError o = some ⟨.unsupportedCompression, o.compression, 0, 0⟩ := by
  rw [decodeError, h, checkCompression, if_neg hc]
  rfl

/-- R221, R222: with a rejected value, the sign of the height and then that of the width decide how DECODE ends. -/
theorem runDecode_of_rejected (hc : ¬(o.compression = 0#32 ∨ o.compression = 3#32)) :
    (0 ≤ o.heightInt → 0 ≤ o.widthInt → runDecode o s = .next (completedErr 4 o.compression 0#32 0#32 s)) ∧
    (o.heightInt < 0 → runDecode o s = .next (completedErr 2 1#32 0#32 0#32 s)) ∧
    (0 ≤ o.heightInt → o.widthInt < 0 → runDecode o s = .next (completedErr 2 2#32 0#32 0#32 s)) :=
  ⟨fun hh hw => runDecode_of_failed_check (decodeError_of_rejected (checkFormat_of_nonneg hh hw) hc),
    fun hh => runDecode_of_failed_check (decodeError_of_checkFormat (checkFormat_of_neg_height hh hc)),
    fun hh hw => runDecode_of_failed_check (decodeError_of_checkFormat (checkFormat_of_neg_width hh hw))⟩

/-- Settles O43: the row selects its value, which is none that DECODE decodes, and keeps the height and the width. -/
theorem rejectedCompressionsRaise : Obligations.RejectedCompressionsRaise := by
  intro s i comp henc hwf o
  have hdec : Sys2Proof.decodeComp comp = .ok i := by
    rw [← decode_comp, ← henc, encodeThenDecodeGivesTheInstruction i hwf]
  rw [exec_selected (selected_of_decodeComp o hdec)]
  exact runDecode_of_rejected (o := o.withComp comp) (not_decoded_of_decodeComp hdec)

/-! The operands in a mode (R143) -/

@[simp] theorem Regs.withMode_bpp (bpp : BitVec 16) (bf : Bool) (r : Regs) : (r.withMode bpp bf).bpp = bpp := rfl

@[simp] theorem Regs.withMode_bitFields (bpp : BitVec 16) (bf : Bool) (r : Regs) :
    (r.withMode bpp bf).bitFields = bf := by
  cases bf <;> rfl

/-! No pixel at 0 bits per pixel (R325) -/

/-- R325, R374: with no pixel to unpack, a DECODE that fails no check leaves OUTMEM alone. -/
theorem runDecode_of_zero_depth (ha : Admitted o) (h0 : o.bpp = 0#16) :
    runDecode o s = .next { completedOk s with regs := { (completedOk s).regs with outCount := 0#32 } } := by
  have hnone : unpackAll o s.pal s.inmem = .ok [] := if_pos h0
  have hneed : o.need = 0 := if_pos h0
  have hout : decodedOut o [] s.outmem = s.outmem := if_pos h0
  rw [runDecode_of_ok (decodeError_eq_none_iff.2 ha) hnone, decoded, hneed, hout]
  rfl

/-- Settles O46: every decode-family instruction is DECODE on the operands it selects, and UNPACK.0 selects 0 bpp. -/
theorem zeroBitDepthWritesNothing : Obligations.ZeroBitDepthWritesNothing := by
  refine ⟨fun i s o hsel ha h0 => ?_, fun s bf ha => ?_⟩
  · rw [exec_selected hsel]
    exact runDecode_of_zero_depth ha h0
  · exact runDecode_of_zero_depth ha rfl

/-! The indexed paths (R326, R327, R328) -/

theorem index1_eq_storedIndex (h : o.bpp = 1#16) : index1 o m sr c = storedIndex o m sr c := by
  rw [storedIndex, if_pos h, BitVec.getLsbD, Nat.toNat_testBit, index1, Nat.shiftRight_eq_div_pow]
  rfl

theorem index4_eq_storedIndex (h : o.bpp = 4#16) : index4 o m sr c = storedIndex o m sr c := by
  have hbyte := (m.read (rowByte o sr + c / 2)).isLt
  rw [storedIndex, if_neg (by simp [h]), if_pos h]
  simp only [index4]
  split
  · rw [BitVec.extractLsb'_toNat, Nat.shiftRight_eq_div_pow, Nat.mod_eq_of_lt (by omega)]
    rfl
  · rw [BitVec.extractLsb'_toNat]
    rfl

theorem index8_eq_storedIndex (h : o.bpp = 8#16) : index8 o m sr c = storedIndex o m sr c := by
  rw [storedIndex, if_neg (by simp [h]), if_neg (by simp [h])]
  rfl

/-- R326 to R328: an indexed path looks up the stored index. -/
theorem unpackPixel_indexed (hb : o.bpp ∈ [1#16, 4#16, 8#16]) :
    unpackPixel o pal m sr c = lookup o.palCount pal (storedIndex o m sr c) sr c := by
  simp only [List.mem_cons, List.not_mem_nil, or_false] at hb
  rcases hb with h | h | h
  · rw [unpackPixel_1 h, unpackPixel1, index1_eq_storedIndex h]
  · rw [unpackPixel_4 h, unpackPixel4, index4_eq_storedIndex h]
  · rw [unpackPixel_8 h, unpackPixel8, index8_eq_storedIndex h]

/-- R256: an index below PAL_COUNT gives the pixel of its entry. -/
theorem unpackPixel_of_index_lt (hb : o.bpp ∈ [1#16, 4#16, 8#16]) (hlt : storedIndex o m sr c < o.palCount.toNat) :
    unpackPixel o pal m sr c = .ok (entryPixel (pal.getD (storedIndex o m sr c) ⟨0#8, 0#8, 0#8, 0#8⟩)) := by
  rw [unpackPixel_indexed hb]
  exact lookup_eq_ok.2 ⟨hlt, rfl⟩

/-- The three indexed bit depths are not 0. -/
theorem bpp_ne_zero_of_indexed (hb : o.bpp ∈ [1#16, 4#16, 8#16]) : o.bpp ≠ 0#16 := by
  intro h0
  simp [h0] at hb

/-- Settles O47: every path of the table is an indexed one, and every index has its entry. -/
theorem indexedPathsShowPalettePixels : Obligations.IndexedPathsShowPalettePixels := by
  intro s bf _ ib hib o ha hidx
  have hsel : selected ib.1 s.operands = some o ∧ o.bpp ∈ [1#16, 4#16, 8#16] := by
    simp only [List.mem_cons, List.not_mem_nil, or_false] at hib
    rcases hib with rfl | rfl | rfl <;> exact ⟨rfl, by simp [o]⟩
  obtain ⟨hsel, hb⟩ := hsel
  rw [exec_selected hsel]
  exact runDecode_decodesTo ha (bpp_ne_zero_of_indexed hb) fun sr hsr c hc =>
    unpackPixel_of_index_lt hb (hidx sr hsr c hc)

/-! The direct paths (R329 to R333) -/

/-- A 16-bit little-endian read is the two bytes side by side, zero-extended (R17, R148). -/
theorem Memory.word16_eq_le16 (m : Memory) (a : Nat) : m.word16 a = le16 m a := by
  have hfits : m.readLE a 2 < 2 ^ 16 := m.readLE_lt a 2
  apply BitVec.eq_of_toNat_eq
  rw [Memory.word16, BitVec.toNat_ofNat, Nat.mod_eq_of_lt (by omega)]
  simp only [Memory.readLE, le16, toNat_append_eq_add, BitVec.toNat_ofNat]
  ring

/-- Settles O48: BF chooses between the fixed masks and the host's. -/
theorem sixteenBitPathsShowExtractedPixels : Obligations.SixteenBitPathsShowExtractedPixels := by
  refine fun s => ⟨fun ha => runDecode_decodesTo ha (by simp) fun sr _ c _ => ?_,
    fun ha => runDecode_decodesTo ha (by simp) fun sr _ c _ => ?_⟩ <;>
  · rw [unpackPixel_16 rfl, Regs.withMode_bitFields, ← Memory.word16_eq_le16]
    rfl

/-- Settles O49: a triple is its red, green and blue bytes side by side behind the alpha. -/
theorem twentyFourBitPathShowsTriples : Obligations.TwentyFourBitPathShowsTriples :=
  fun _ _ ha => runDecode_decodesTo ha (by simp) fun _ _ _ _ => unpackPixel_24 rfl

/-- Settles O50: BF chooses between the forced alpha and the host's masks. -/
theorem thirtyTwoBitPathsShowTheirPixels : Obligations.ThirtyTwoBitPathsShowTheirPixels := by
  refine fun s => ⟨fun ha => runDecode_decodesTo ha (by simp) fun sr _ c _ => ?_,
    fun ha => runDecode_decodesTo ha (by simp) fun sr _ c _ => ?_⟩ <;>
  · rw [unpackPixel_32 rfl, Regs.withMode_bitFields, ← Memory.word32_eq_le32]
    rfl

/-! The first index that is out of range (R323) -/

theorem storedIndex_lt (o : Regs) (m : Memory) (sr c : Nat) : storedIndex o m sr c < 256 := by
  unfold storedIndex
  split_ifs
  · exact (Bool.toNat_lt _).trans (by decide)
  · exact (BitVec.isLt _).trans (by decide)
  · exact (BitVec.isLt _).trans (by decide)
  · exact BitVec.isLt _

/-- R51: a height of 32 bits has at most 2^31 rows. -/
theorem Regs.rowCount_le (o : Regs) : o.rowCount ≤ 2 ^ 31 := by
  have hlow : -(2 ^ 31) ≤ o.heightInt := o.height.le_toInt
  have hhigh : o.heightInt < 2 ^ 31 := o.height.toInt_lt
  unfold Regs.rowCount
  omega

/-- R50: a width of 32 bits is below 2^31. -/
theorem Regs.imageWidth_lt (o : Regs) : o.imageWidth < 2 ^ 31 := by
  have hhigh : o.widthInt < 2 ^ 31 := o.width.toInt_lt
  unfold Regs.imageWidth
  omega

/-- R20: padding a row to whole 32-bit words adds fewer than 32 pixels. -/
theorem Regs.paddedWidth_lt_imageWidth_add_word (hpos : 0 < o.bpp.toNat) : o.paddedWidth < o.imageWidth + 32 := by
  refine Nat.div_lt_of_lt_mul (o.rowBits_lt_imageBits_add_word.trans_le ?_)
  rw [Nat.mul_add, Nat.mul_comm]
  exact Nat.add_le_add_left (Nat.le_mul_of_pos_left 32 hpos) _

/-- R323: the pixel whose index is the first that is out of range fails, and so does the sequence, with its place. -/
theorem unpackAll_of_first_bad_index (hb : o.bpp ∈ [1#16, 4#16, 8#16]) (hsr : sr < o.rowCount)
    (hc : c < o.paddedWidth) (hbad : o.palCount.toNat ≤ storedIndex o m sr c)
    (hlow : ∀ r < o.rowCount, ∀ k < o.paddedWidth, (r < sr ∨ r = sr ∧ k < c) →
      storedIndex o m r k < o.palCount.toNat) :
    unpackAll o pal m = .error ⟨.indexOutOfRange, BitVec.ofNat 32 (storedIndex o m sr c), BitVec.ofNat 32 sr,
      BitVec.ofNat 32 c⟩ := by
  have h0 := bpp_ne_zero_of_indexed hb
  have hidx := storedIndex_lt o m sr c
  have hrows := o.rowCount_le
  have hW := o.imageWidth_lt
  have hP : o.paddedWidth < o.imageWidth + 32 := Regs.paddedWidth_lt_imageWidth_add_word (by bv_omega)
  rw [← sat32_of_lt (by omega), ← sat32_of_lt (n := sr) (by omega), ← sat32_of_lt (n := c) (by omega)]
  refine (unpackAll_eq_error h0).2 ⟨sr, hsr, c, hc, ?_, fun r hr k hk hlt =>
    ⟨_, unpackPixel_of_index_lt hb (hlow r hr k hk hlt)⟩⟩
  rw [unpackPixel_indexed hb]
  exact lookup_eq_error.2 ⟨hbad, rfl⟩

/-- Settles O51: the checks pass, so the failing pixel ends the DECODE, and only the bytes below `need` become free. -/
theorem firstOutOfRangeIndexIsReported : Obligations.FirstOutOfRangeIndexIsReported := by
  intro i s o sr c hsel ha hb hsr hc hbad hlow
  rw [exec_selected hsel, runDecode_of_failed_pixel (decodeError_eq_none_iff.2 ha)
    (unpackAll_of_first_bad_index hb hsr hc hbad hlow)]
  refine ⟨(s.scrambleOut o.need).outmem, (s.scrambleOut o.need).draws, rfl, fun a ha => ?_⟩
  rw [State.scrambleOut_outmem, Memory.read_fill, if_neg (Nat.not_lt.2 ha)]

end Sys2Proof.Machine
end

section
/-! The scanline engine (`44_scanline.md` R375 to R387): the fields of FMT decide only how the pixels are shown, what each
of them does to the shown bytes, and that every pixel is opaque. -/

namespace Sys2Proof.Machine

open Sys2Proof.Spec

variable {i : Instr} {s : State} {o : Regs} {pal : List PalEntry} {m : Memory} {sr c : Nat} {p : Word}
  {pixel : Nat → Nat → Word} {out : Host.Outcome State Fault Refusal}

/-! The operands with another FMT (R55) -/

/-- Of DECODE's checks only the one of the order looks at FMT (R224). -/
theorem admitted_with_fmt {f : BitVec 5} (ha : Admitted o) (hord : ({ o with fmt := f } : Regs).order.toNat ≤ 3) :
    Admitted { o with fmt := f } := by
  obtain ⟨hcomp, hwidth, hdepth, hmasks, -, hneed, hin⟩ := ha
  exact ⟨hcomp, hwidth, hdepth, hmasks, hord, hneed, hin⟩

/-- The unpacker does not look at FMT, so an instruction that selects another FMT decodes the same pixels. -/
theorem exec_decodesTo_with_fmt {f : BitVec 5} (hsel : selected i s.operands = some { o with fmt := f })
    (ha : Admitted o) (hord : ({ o with fmt := f } : Regs).order.toNat ≤ 3) (h0 : o.bpp ≠ 0#16)
    (hpix : ∀ sr < o.rowCount, ∀ c < o.paddedWidth, unpackPixel o s.pal s.inmem sr c = .ok (pixel sr c)) :
    DecodesTo (exec i s) { o with fmt := f } s pixel :=
  decodeWritesTheKeptPixels i s _ pixel hsel (admitted_with_fmt ha hord) h0 hpix

/-- The next state of a successful DECODE and the bytes it shows (R372). -/
theorem exists_next_of_decodesTo (h : DecodesTo out o s pixel) :
    ∃ t, out = .next t ∧ ∀ r < o.rowCount, ∀ c < o.imageWidth,
      shownBytes o t.outmem r c = storedBytes o.outfmt o.order (pixel (storedRowOf o r) c) := by
  obtain ⟨m, hout, hshown, -⟩ := h
  exact ⟨_, hout, hshown⟩

/-! Channel order (R379 to R386) -/

theorem storedRowOf_withOrder (ord : BitVec 3) (o : Regs) (r : Nat) :
    storedRowOf (o.withOrder ord) r = storedRowOf o r := by
  rw [storedRowOf, Regs.withOrder_topdown]
  rfl

/-- R381, R382: in the byte format RGBA and BGRA differ by the exchange of the first byte and the third. -/
theorem storedBytes_bgra_of_rgba {q0 q1 q2 q3 : Byte} (h : storedBytes false 0#3 p = [q0, q1, q2, q3]) :
    storedBytes false 1#3 p = [q2, q1, q0, q3] := by
  have hrgba : [pixR p, pixG p, pixB p, pixA p] = [q0, q1, q2, q3] := h
  obtain ⟨rfl, rfl, rfl, rfl⟩ : pixR p = q0 ∧ pixG p = q1 ∧ pixB p = q2 ∧ pixA p = q3 := by simpa using hrgba
  rfl

/-- Settles O52: each row selects its own order. -/
theorem channelOrderRowsPermuteTheBytes : Obligations.ChannelOrderRowsPermuteTheBytes := by
  intro s pix io hio o ha h0 hpix
  have hsel : selected io.1 s.operands = some o := by
    simp only [List.mem_cons, List.not_mem_nil, or_false] at hio
    rcases hio with rfl | rfl | rfl | rfl <;> rfl
  exact ⟨decodeWritesTheKeptPixels io.1 s o pix hsel ha h0 hpix, Regs.withOrder_order io.2 s.operands⟩

/-- Settles O55: both runs show the same pixel at each place, since the order moves no row and changes no format. -/
theorem rgbaPermutedIsBgra : Obligations.RgbaPermutedIsBgra := by
  intro s pix o ha h0 hbytes hpix
  have hord : (s.operands.withOrder 1#3).order.toNat ≤ 3 := by
    rw [Regs.withOrder_order]
    decide
  have hrgba : DecodesTo (exec .orderRgba s) o s pix := decodeWritesTheKeptPixels _ s o pix rfl ha h0 hpix
  have hbgra : DecodesTo (exec .orderBgra s) (s.operands.withOrder 1#3) s pix :=
    exec_decodesTo_with_fmt (o := o) rfl ha hord h0 hpix
  obtain ⟨t, ht, hshown_t⟩ := exists_next_of_decodesTo hrgba
  obtain ⟨u, hu, hshown_u⟩ := exists_next_of_decodesTo hbgra
  refine ⟨t, u, ht, hu, fun r hr c hc q0 q1 q2 q3 hquad => ?_⟩
  have hformat : s.operands.outfmt = false := (Regs.withOrder_outfmt 0#3 s.operands).symm.trans hbytes
  rw [hshown_t r hr c hc, storedRowOf_withOrder, hbytes, Regs.withOrder_order] at hquad
  refine (hshown_u r hr c hc).trans ?_
  rw [storedRowOf_withOrder, Regs.withOrder_outfmt, hformat, Regs.withOrder_order]
  exact storedBytes_bgra_of_rgba hquad

/-! Output format (R380, R385) -/

/-- Settles O54: a row of FMT.OUTFMT keeps the order, and ARGB reversed is BGRA. -/
theorem outputFormatsReverseEachOther : Obligations.OutputFormatsReverseEachOther := by
  intro s pix o ha h0 hpix
  have hord : ∀ b, (o.withOutfmt b).order.toNat ≤ 3 := fun b => by
    obtain ⟨-, -, -, -, hord, -⟩ := ha
    rwa [Regs.withOutfmt_order]
  exact ⟨exec_decodesTo_with_fmt rfl ha (hord false) h0 hpix, exec_decodesTo_with_fmt rfl ha (hord true) h0 hpix,
    fun _ => rfl⟩

/-! Orientation (R375, R376) -/

/-- R375: the two requested orders take their rows from opposite ends. -/
theorem storedRowOf_topdown_eq_bottomup (o : Regs) {r : Nat} (hr : r < o.rowCount) :
    storedRowOf (o.withTopdown true) r = storedRowOf (o.withTopdown false) (o.rowCount - 1 - r) := by
  have hcount : ∀ b, (o.withTopdown b).rowCount = o.rowCount := fun _ => rfl
  have hstored : ∀ b, (o.withTopdown b).storedTopDown = o.storedTopDown := fun _ => rfl
  simp only [storedRowOf, Regs.withTopdown_topdown, hcount, hstored]
  cases o.storedTopDown
  · rfl
  · exact (by omega : r = o.rowCount - 1 - (o.rowCount - 1 - r))

/-- Settles O53: mirrored rows come from one stored row, and the two runs agree in the order and the format. -/
theorem orientationsMirrorEachOther : Obligations.OrientationsMirrorEachOther := by
  intro s pix o ha h0 hpix
  have hord : ∀ b, (o.withTopdown b).order.toNat ≤ 3 := fun b => by
    obtain ⟨-, -, -, -, hord, -⟩ := ha
    rwa [Regs.withTopdown_order]
  have htop : DecodesTo (exec .orientTopdown s) (o.withTopdown true) s pix :=
    exec_decodesTo_with_fmt rfl ha (hord true) h0 hpix
  have hbottom : DecodesTo (exec .orientBottomup s) (o.withTopdown false) s pix :=
    exec_decodesTo_with_fmt rfl ha (hord false) h0 hpix
  obtain ⟨t, ht, hshown_t⟩ := exists_next_of_decodesTo htop
  obtain ⟨u, hu, hshown_u⟩ := exists_next_of_decodesTo hbottom
  refine ⟨t, u, ht, hu, htop, hbottom, fun r hr c hc => ?_⟩
  have hmirror : o.rowCount - 1 - r < o.rowCount := by omega
  calc shownBytes o t.outmem r c
      = storedBytes o.outfmt o.order (pix (storedRowOf (o.withTopdown true) r) c) := by
        rw [← Regs.withTopdown_outfmt true o, ← Regs.withTopdown_order true o]
        exact hshown_t r hr c hc
    _ = storedBytes o.outfmt o.order (pix (storedRowOf (o.withTopdown false) (o.rowCount - 1 - r)) c) := by
        rw [storedRowOf_topdown_eq_bottomup o hr]
    _ = shownBytes o u.outmem (o.rowCount - 1 - r) c := by
        rw [← Regs.withTopdown_outfmt false o, ← Regs.withTopdown_order false o]
        exact (hshown_u _ hmirror c hc).symm

/-! Alpha (R19, R387) -/

@[simp] theorem pixA_argb (a r g b : Byte) : pixA (argb a r g b) = a := by
  apply BitVec.eq_of_toNat_eq
  have ha := a.isLt
  have hr := r.isLt
  have hg := g.isLt
  have hb := b.isLt
  simp only [pixA, argb, BitVec.extractLsb'_toNat, toNat_append_eq_add, Nat.shiftRight_eq_div_pow]
  omega

/-- R256: a palette's pixel has alpha 0xFF. -/
theorem exists_argb_of_lookup {n : BitVec 9} {idx : Nat} (h : lookup n pal idx sr c = .ok p) :
    ∃ r g b, p = argb 0xFF#8 r g b := by
  obtain ⟨-, rfl⟩ := lookup_eq_ok.1 h
  exact ⟨_, _, _, rfl⟩

/-- R19, R387: each path gives three channels of its own behind the alpha 0xFF. -/
theorem exists_argb_of_unpackPixel (h : unpackPixel o pal m sr c = .ok p) : ∃ r g b, p = argb 0xFF#8 r g b := by
  unfold unpackPixel at h
  split at h
  -- the palette's paths (R326 to R328)
  case h_1 | h_2 | h_3 => exact exists_argb_of_lookup h
  -- the extractor's paths and the triples (R329 to R331, R333)
  case h_4 | h_5 | h_6 | h_8 => cases h; exact ⟨_, _, _, rfl⟩
  -- the forced alpha over the low 24 bits (R332)
  case h_7 => cases h; exact ⟨_, _, _, (argb_low_bytes _).symm⟩
  -- a depth without a path has no pixel
  case h_9 => cases h

/-- Settles O56: a pixel built of alpha 0xFF and three channels has that alpha. -/
theorem unpackedPixelsAreOpaque : Obligations.UnpackedPixelsAreOpaque := by
  intro o pal m sr c p h
  obtain ⟨r, g, b, rfl⟩ := exists_argb_of_unpackPixel h
  exact pixA_argb 0xFF#8 r g b

end Sys2Proof.Machine
end

section
/-! Exceptions (`60_exceptions.md` R410 to R445): which check of DECODE is the one reported, what a completion with an
error can be and what it leaves unchanged, and the interrupt line. -/

namespace Sys2Proof.Machine

open Sys2Proof.Spec

variable {i : Instr} {s t : State} {o : Regs}

/-! The first failing check of DECODE (R440) -/

/-- What a completion with error `e` records (R201): ERRCODE, ERRINFO, ERRROW and ERRCOL. -/
def CmdError.record (e : CmdError) : BitVec 4 × Word × Word × Word := (e.code.code, e.info, e.row, e.col)

/-- The same for the spec's report of a failing check, a code with its ERRINFO and ERRCOL (R411): no check of DECODE has
a row. -/
def reportRecord (report : Nat × Word × Word) : BitVec 4 × Word × Word × Word :=
  (BitVec.ofNat 4 report.1, report.2.1, 0#32, report.2.2)

/-- Raising an error is the spec's completion with the report that it records. -/
theorem State.raise_of_record {e : CmdError} {code : Nat} {info col : Word}
    (h : e.record = reportRecord (code, info, col)) : s.raise e = completedErr code info 0#32 col s := by
  simp only [CmdError.record, reportRecord, Prod.mk.injEq] at h
  obtain ⟨hcode, hinfo, hrow, hcol⟩ := h
  rw [State.raise, hcode, hinfo, hrow, hcol]
  rfl

/-- The format's check is two checks in order (R221). -/
theorem checkFormat_eq_or (o : Regs) :
    checkFormat o =
      (if o.heightInt < 0 ∧ ¬(o.compression = 0#32 ∨ o.compression = 3#32) then some ⟨.unsupportedFormat, 1, 0, 0⟩
        else none).or
      (if o.widthInt < 0 then some ⟨.unsupportedFormat, 2, 0, 0⟩ else none) := by
  unfold checkFormat
  split_ifs <;> rfl

/-- The check of the masks is three checks in order, each where the masks are used (R226). -/
theorem checkUsedMasks_eq_or (o : Regs) :
    checkUsedMasks o =
      ((if o.usesMasks = true ∧ contiguous o.rmask = false then some ⟨.invalidColorMask, o.rmask, 0, 0⟩ else none).or
      (if o.usesMasks = true ∧ contiguous o.gmask = false then some ⟨.invalidColorMask, o.gmask, 0, 1⟩ else none)).or
      (if o.usesMasks = true ∧ contiguous o.bmask = false then some ⟨.invalidColorMask, o.bmask, 0, 2⟩ else none) := by
  unfold checkUsedMasks checkMasks checkMask
  split_ifs <;> simp_all

/-- Where the first check fails, both sides report it, and where it passes, both go on to the rest. -/
theorem record_check_or {p q : Prop} [Decidable p] [Decidable q] {e : CmdError} {report : Nat × Word × Word}
    {rest : Option CmdError} {reports : Option (Nat × Word × Word)} (hpq : p ↔ q) (he : e.record = reportRecord report)
    (hrest : rest.map CmdError.record = reports.map reportRecord) :
    ((if p then some e else none).or rest).map CmdError.record =
      (if q then some report else reports).map reportRecord := by
  by_cases hp : p
  · simp [hp, hpq.1 hp, he]
  · simp [hp, mt hpq.2 hp, hrest]

/-- R440: DECODE's checks report what the spec's list of them does, check by check in the same order. -/
theorem decodeError_record (o : Regs) : (decodeError o).map CmdError.record = (firstError o).map reportRecord := by
  have hdepth : checkDepth o = if ¬o.bpp ∈ [0#16, 1#16, 4#16, 8#16, 16#16, 24#16, 32#16] then
      some ⟨.unsupportedBitDepth, o.bpp.setWidth 32, 0, 0⟩ else none := by
    rw [checkDepth, ite_not]
    exact if_congr List.contains_iff_mem rfl rfl
  have hcomp : checkCompression o = if ¬(o.compression = 0#32 ∨ o.compression = 3#32) then
      some ⟨.unsupportedCompression, o.compression, 0, 0⟩ else none := (ite_not ..).symm
  rw [decodeError, checkFormat_eq_or, checkUsedMasks_eq_or, hdepth, hcomp, ← Option.or_none (o := checkInput o)]
  simp only [Option.or_assoc]
  -- the two checks of R221, then R222, R223
  exact record_check_or (and_congr_right fun _ => not_or) rfl <| record_check_or .rfl rfl <|
    record_check_or not_or rfl <| record_check_or .rfl rfl <|
    -- the three masks of R226
    record_check_or .rfl rfl <| record_check_or .rfl rfl <| record_check_or .rfl rfl <|
    -- R224, R225, R228
    record_check_or .rfl rfl <| record_check_or .rfl rfl <| record_check_or .rfl rfl rfl

/-- Settles O42: the checks' error is the one that the spec's list reports first. -/
theorem decodeReportsTheFirstFailingCheck : Obligations.DecodeReportsTheFirstFailingCheck := by
  intro i s o hsel
  have hrecord := decodeError_record o
  refine ⟨fun code info col hfirst => ?_, ?_⟩
  · rw [hfirst] at hrecord
    obtain ⟨e, herr, he⟩ := Option.map_eq_some_iff.1 hrecord
    rw [exec_selected hsel, runDecode_of_failed_check herr, State.raise_of_record he]
  · rw [← decodeError_eq_none_iff, ← Option.map_eq_none_iff (f := reportRecord), ← hrecord, Option.map_eq_none_iff]

/-! Completions with an error (R421, R422) -/

/-- What a completion with an error is: the error raised in the state as it was, in the state with the palette emptied
(R254), or in the one with the DECODE's output range unspecified. -/
theorem Completes.raised (h : Completes i s t) (herr : t.regs.err = true) : ∃ e : CmdError,
    (i ≠ .palLoad ∧ t = s.raise e) ∨ (i = .palLoad ∧ t = (palEmptied s).raise e) ∨
    ∃ o, selected i s.operands = some o ∧ e.code = .indexOutOfRange ∧ t = (s.scrambleOut o.need).raise e := by
  cases h
  case fail e _ _ hi => exact ⟨e, .inl ⟨hi, rfl⟩⟩
  case palFail e _ _ hi => exact ⟨e, .inr (.inl ⟨hi, rfl⟩)⟩
  case badIndex o hsel e he _ => exact ⟨e, .inr (.inr ⟨o, hsel, he, rfl⟩)⟩
  all_goals cases herr

/-- A DECODE is no other command. -/
theorem ne_of_selected {j : Instr} (hsel : selected i s.operands = some o) (hj : selected j s.operands = none) : i ≠ j := by
  rintro rfl
  simp [hj] at hsel

/-- Settles O18: raising writes STATUS and the error registers, and only PAL_LOAD raises with other registers changed. -/
theorem errorsArePreciseInTheRegisters : Obligations.ErrorsArePreciseInTheRegisters := by
  intro i s t h herr
  obtain ⟨e, hcase⟩ := (Completes.of_exec h).raised herr
  refine ⟨e.code.code, e.info, e.row, e.col, ?_⟩
  rcases hcase with ⟨hi, rfl⟩ | ⟨rfl, rfl⟩ | ⟨o, hsel, -, rfl⟩
  · rw [if_neg hi]; rfl
  · rfl
  · rw [if_neg (ne_of_selected hsel rfl)]; rfl

/-- Settles O19: raising touches no memory, and the output range of a DECODE ends at `need`. -/
theorem errorsLeaveMemoryAndResultsAlone : Obligations.ErrorsLeaveMemoryAndResultsAlone := by
  intro i s t h herr
  obtain ⟨e, ⟨-, rfl⟩ | ⟨rfl, rfl⟩ | ⟨o, hsel, he, rfl⟩⟩ := (Completes.of_exec h).raised herr
  · exact ⟨rfl, rfl, rfl, rfl, rfl, rfl, fun _ => rfl, fun _ => rfl, fun _ _ _ _ => rfl⟩
  · exact ⟨rfl, rfl, rfl, rfl, rfl, rfl, fun hi => absurd rfl hi, fun _ => rfl, fun _ _ _ _ => rfl⟩
  · refine ⟨rfl, rfl, rfl, rfl, rfl, rfl, fun _ => rfl, fun hkept => ?_, fun o' a hsel' ha => ?_⟩
    · have hcode : e.code.code = 6#4 := congrArg ErrCode.code he
      exact absurd hkept (not_or.2 ⟨not_not.2 hcode, ne_of_selected hsel rfl⟩)
    · cases hsel.symm.trans hsel'
      exact (Memory.read_fill ..).trans (if_neg (Nat.not_lt.2 ha))

/-! The interrupt line (R430) -/

/-- DONE is bit 1 of STATUS (R35). -/
theorem State.readReg_status_done (s : State) : (s.readReg .status).getLsbD 1 = s.regs.done := by
  change (statusWord s.busy s.regs.done s.regs.err).getLsbD 1 = s.regs.done
  cases s.busy <;> cases s.regs.done <;> cases s.regs.err <;> rfl

/-- IE is bit 0 of IRQEN (R38). -/
theorem State.readReg_irqen_ie (s : State) : (s.readReg .irqen).getLsbD 0 = s.regs.ie := by
  change ((BitVec.ofBool s.regs.ie).setWidth 32).getLsbD 0 = s.regs.ie
  cases s.regs.ie <;> rfl

theorem State.irq_of_not_done (h : s.regs.done = false) : s.irq = false := by simp [State.irq, h]

theorem State.irq_of_not_ie (h : s.regs.ie = false) : s.irq = false := by simp [State.irq, h]

/-- Every completion sets DONE (R201). -/
theorem Completes.done_eq (h : Completes i s t) : t.regs.done = true := by
  rcases h.outcome with ⟨u, rfl⟩ | ⟨u, e, -, rfl⟩ <;> rfl

/-- No completion writes IRQEN (R38). -/
theorem Completes.ie_eq (h : Completes i s t) : t.regs.ie = s.regs.ie := by cases h <;> rfl

/-- Settles O16: a completion sets DONE and keeps IE, and each of the other events clears DONE or IE. -/
theorem interruptFollowsDoneAndEnable : Obligations.InterruptFollowsDoneAndEnable := by
  intro s
  refine ⟨?_, fun i t h => ?_, State.irq_of_not_done (by simp [State.driveReset, Regs.reset]),
    fun hp hrst => ⟨fun v hv => ?_, fun v hv => ?_, fun w => ?_⟩⟩
  · rw [State.readReg_status_done, State.readReg_irqen_ie, State.irq]
  · have hc := Completes.of_exec h
    rw [State.irq, hc.done_eq, hc.ie_eq, Bool.true_and]
  · have hwrite : s.mmioWrite 0x008#32 v = { s with regs := s.regs.writeStatus v } :=
      State.mmioWrite_offset_of_idle (r := .status) (by decide) hp hrst
    rw [hwrite]
    exact State.irq_of_not_done (by simp [Regs.writeStatus, hv])
  · have hwrite : s.mmioWrite 0x01C#32 v = { s with regs := { s.regs with ie := v.getLsbD 0 } } :=
      State.mmioWrite_offset_of_idle (r := .irqen) (by decide) hp hrst
    rw [hwrite]
    exact State.irq_of_not_ie hv
  · exact State.irq_of_not_done (congrArg (·.regs.done) (State.mmioWrite_cmd hp hrst))

end Sys2Proof.Machine
end

section
/-! Reset and hazards (`70_reset_and_hazards.md` R460 to R476): what the block and the two memories hold once `rst` is
asserted, a DECODE straight after reset, and what a pending command makes of the host's writes. -/

namespace Sys2Proof.Machine

open Sys2Proof.Spec

variable {s : State}

/-! A block at its reset values (R460) -/

/-- R460: ID is a constant, and every other register of an idle block at its reset values reads 0. -/
theorem State.readReg_of_reset (hregs : s.regs = Regs.reset) (hp : s.pending = none) (r : Reg) :
    s.readReg r = if r = .id then 0x56440001#32 else 0#32 := by
  cases r
  case status => simp only [State.readReg, State.status, State.busy, hregs, hp]; rfl
  all_goals simp only [State.readReg, hregs]; rfl

theorem State.irq_of_reset (hregs : s.regs = Regs.reset) : s.irq = false :=
  State.irq_of_not_done (congrArg Regs.done hregs)

/-- Settles O12: no register holds a flag, a code or a count, nothing is pending, and both memories are empty. -/
theorem resetMeetsTheInvariant : Obligations.ResetMeetsTheInvariant where
  inmem_wf := Memory.wf_nil
  outmem_wf := Memory.wf_nil
  pal_size := List.length_replicate
  count_le := Nat.zero_le _
  loaded_rsv := fun _ hi => absurd hi (Nat.not_lt_zero _)
  code_produced := .inl rfl
  err_iff_code := by simp [Regs.reset]
  no_detail := fun _ => ⟨rfl, rfl, rfl⟩
  busy_cleared := nofun
  snapshot_eq := nofun
  cursor_iff := by simp
  held_in_reset := nofun

/-! The host asserts `rst` (R461, R462) -/

@[simp] theorem State.driveReset_true_regs (s : State) : (s.driveReset true).regs = Regs.reset := s.resetBlock_regs

@[simp] theorem State.driveReset_true_pending (s : State) : (s.driveReset true).pending = none := s.resetBlock_pending

@[simp] theorem State.driveReset_true_cursor (s : State) : (s.driveReset true).cursor = none := s.resetBlock_cursor

@[simp] theorem State.driveReset_true_inmem (s : State) : (s.driveReset true).inmem = s.inmem := s.resetBlock_inmem

/-- R462: OUTMEM after a reset is unspecified below OUT_LEN where a DECODE was pending. -/
theorem State.resetBlock_outmem (s : State) :
    s.resetBlock.outmem = if s.mayHaveWritten then (s.scrambleOut s.regs.outLen.toNat).outmem else s.outmem := by
  unfold State.resetBlock
  split <;> rfl

/-- R100: of the commands only a DECODE writes OUTMEM. -/
theorem State.mayHaveWritten_eq_false (h : ∀ p, s.pending = some p → p.word ≠ 5#32) : s.mayHaveWritten = false := by
  unfold State.mayHaveWritten
  split
  · rename_i p hp
    exact beq_eq_false_iff_ne.2 (h p hp)
  · rfl

/-- R460: OUTMEM is not the block's, so a reset leaves it alone where no DECODE was pending. -/
theorem State.driveReset_true_outmem_of_no_decode (h : ∀ p, s.pending = some p → p.word ≠ 5#32) :
    (s.driveReset true).outmem = s.outmem :=
  s.resetBlock_outmem.trans (if_neg (Bool.eq_false_iff.1 (State.mayHaveWritten_eq_false h)))

/-- R462: a DECODE has written at most the bytes below OUT_LEN. -/
theorem State.driveReset_true_read_outmem_of_outLen_le {a : Nat} (ha : s.regs.outLen.toNat ≤ a) :
    (s.driveReset true).outmem.read a = s.outmem.read a := by
  refine (congrArg (Memory.read · a) s.resetBlock_outmem).trans ?_
  split
  · rw [State.scrambleOut_outmem, Memory.read_fill, if_neg (Nat.not_lt.2 ha)]
  · rfl

/-- Settles O24: the reset state and the block held in reset are both idle with the registers at their reset values. -/
theorem resetLeavesTheListedValues : Obligations.ResetLeavesTheListedValues :=
  ⟨State.readReg_of_reset rfl rfl, rfl, rfl, State.irq_of_reset rfl, fun s =>
    ⟨State.readReg_of_reset s.driveReset_true_regs s.driveReset_true_pending, s.driveReset_true_pending,
      s.driveReset_true_cursor, State.irq_of_reset s.driveReset_true_regs, s.driveReset_true_inmem,
      State.driveReset_true_outmem_of_no_decode⟩⟩

/-- Settles O25: the step is the reset, whatever is left of the latency, and either no DECODE was pending or the byte is
above its range. -/
theorem resetAbandonsThePendingCommand : Obligations.ResetAbandonsThePendingCommand := by
  intro s p rest hp hhost
  obtain ⟨-, hreset, -, -⟩ := stepRunsTheLatchedCommand s
  refine ⟨_, hreset p rest hp hhost, State.driveReset_true_pending _, State.irq_of_reset (State.driveReset_true_regs _),
    State.driveReset_true_regs _, State.driveReset_true_inmem _, ?_⟩
  rintro a (hword | hhigh)
  · rw [State.driveReset_true_outmem_of_no_decode]
    intro q hq
    cases hp.symm.trans hq
    exact hword
  · exact State.driveReset_true_read_outmem_of_outLen_le hhigh

/-! A DECODE straight after reset (R463) -/

/-- Settles O26: the registers at reset pass every check of DECODE, and hold 0 bits per pixel. -/
theorem decodeRightAfterResetSucceeds : Obligations.DecodeRightAfterResetSucceeds := by
  refine ⟨rfl, rfl, fun d => ?_⟩
  have ha : Admitted (State.reset.accept 5#32 d).operands := by
    rw [State.accept_operands]
    decide
  have hstatus : statusWord false true false = 0b010#32 := by decide
  exact ⟨_, runDecode_of_zero_depth ha rfl, hstatus, rfl⟩

/-! The host's writes while a command is pending (R475, R476) -/

/-- Settles O10: the latency leaves the host its turn, and its write finds a command pending. -/
theorem writesWhileBusyAreIgnored : Obligations.WritesWhileBusyAreIgnored := by
  intro s p off v rest hp hd halign hhost
  have hturn : s.engineTurn = false := by simp [State.engineTurn_of_pending hp, hd]
  have hok : mmioOk off 4 = true := mmioOk_iff.2 ⟨rfl, halign⟩
  rw [step_of_host_cons hturn hhost, State.hostReady_of_pending hp]
  exact (if_pos hok).trans (State.hostWrite_of_pending rfl)

/-- Settles O58: the byte is refused exactly where the pending command reads it, and a write changes one byte. -/
theorem inmemHazardsAreRefused : Obligations.InmemHazardsAreRefused := by
  intro s a b
  refine ⟨fun htop => if_pos htop, fun htop => ⟨fun p hp hreads => ?_, fun hfree => ?_⟩⟩
  · exact (if_neg htop).trans (if_pos (State.readsByte_iff.2 ⟨p, hp, hreads⟩))
  · have hnot : ¬s.readsByte a.toNat = true := fun hreads => by
      obtain ⟨p, hp, hr⟩ := State.readsByte_iff.1 hreads
      exact hfree p hp hr
    exact ⟨_, (if_neg htop).trans (if_neg hnot), fun _ => Memory.read_write ..⟩

end Sys2Proof.Machine
end
